-- ==== Sys2Proof/Word.lean ====
section
/-! DEFINITION. The bit-vector types of B64U: what the spec treats as bits (00_scope.md R8, R10, R15). -/

namespace Sys2Proof

/-- One byte of a buffer, and one character of a text (20_memory.md R61, 40_alphabet.md R112). -/
abbrev Byte := BitVec 8

/-- One unit register, `REG_W` = 32 bits (00_scope.md R8). -/
abbrev Word := BitVec 32

/-- A sextet, the index 0 to 63 of an alphabet character (00_scope.md R15). -/
abbrev Sextet := BitVec 6

/-- The fields CODE and REASON of `STATUS` (10_state.md R37). -/
abbrev Nibble := BitVec 4

end Sys2Proof
end

