-- ==== Sys2Proof/Syntax.lean ====
section
/-! DEFINITION. The commands of B64U: one constructor per row of spec/opcode_table.json (30_encoding.md R94). -/

namespace Sys2Proof

/-- The five commands. A command word carries no operand and no immediate (30_encoding.md R92), so no constructor has
an argument. -/
inductive Instr where
  /-- `ENC_BULK`, 41_encode.md R131 -/
  | encBulk
  /-- `ENC_BOUND`, 41_encode.md R133 -/
  | encBound
  /-- `DEC_BULK`, 42_decode.md R152 -/
  | decBulk
  /-- `DEC_BOUND`, 42_decode.md R154 -/
  | decBound
  /-- `DEC_SIZE`, 43_size.md R180 -/
  | decSize
deriving DecidableEq, Repr

end Sys2Proof
end

