-- ==== Sys2Proof/WellFormed.lean ====
section
/-! DEFINITION. Well-formed commands and legal command words (30_encoding.md R91, R96). -/

namespace Sys2Proof

/-- A command has no operand field (30_encoding.md R92), so each of the five is well formed as it stands. -/
def Instr.wellFormed : Instr → Bool
  | .encBulk => true
  | .encBound => true
  | .decBulk => true
  | .decBound => true
  | .decSize => true

/-- First check of a command word: `RSVD` = `w[31:4]` is 0 (30_encoding.md R91). -/
def CommandWord.rsvdZero (w : Word) : Bool := decide (w.toNat / 16 = 0)

/-- Second check of a command word: `OP` = `w[3:0]` is one of 1 to 5 (30_encoding.md R94). -/
def CommandWord.opAssigned (w : Word) : Bool := decide (1 ≤ w.toNat % 16 ∧ w.toNat % 16 ≤ 5)

/-- A legal command word (30_encoding.md R97: the five words of R94 and no other). -/
def CommandWord.legal (w : Word) : Bool := CommandWord.rsvdZero w && CommandWord.opAssigned w

end Sys2Proof
end

