-- ==== Sys2Proof/Decode.lean ====
section
/-! DEFINITION. The decoder of command words, total on 32-bit words, and the encoder (30_encoding.md R90 to R97). -/

namespace Sys2Proof

/-- Field `OP` = `w[3:0]` of a command word (30_encoding.md R91). -/
def opField (w : Word) : BitVec 4 := w.extractLsb' 0 4

/-- Field `RSVD` = `w[31:4]` of a command word (30_encoding.md R91). -/
def rsvdField (w : Word) : BitVec 28 := w.extractLsb' 4 28

/-- Why a word selects no command (30_encoding.md R96). -/
inductive IllegalWord where
  /-- `RSVD` is not 0, whatever `OP` is -/
  | rsvdNotZero
  /-- `OP` is 0x0 or one of 0x6 to 0xF -/
  | opUnassigned (op : BitVec 4)
deriving DecidableEq, Repr

/-- Decode, in the order of 30_encoding.md R95. -/
def decode (w : Word) : Except IllegalWord Instr :=
  if rsvdField w ≠ 0 then .error .rsvdNotZero
  else if opField w = 0x1 then .ok .encBulk
  else if opField w = 0x2 then .ok .encBound
  else if opField w = 0x3 then .ok .decBulk
  else if opField w = 0x4 then .ok .decBound
  else if opField w = 0x5 then .ok .decSize
  else .error (.opUnassigned (opField w))

/-- The value of `OP` (30_encoding.md R94). -/
def opcode : Instr → BitVec 4
  | .encBulk => 0x1
  | .encBound => 0x2
  | .decBulk => 0x3
  | .decBound => 0x4
  | .decSize => 0x5

/-- The command word: `RSVD` = 0 above `OP` (30_encoding.md R91). -/
def encode (i : Instr) : Word := (0 : BitVec 28) ++ opcode i

/-- The command that the decoder reads from the table's bits `w`, `nbits` of them (bit 0 is the least significant bit
of the one 32-bit command word; there is no second word, 30_encoding.md R90). -/
def decodeTableWord (nbits w : Nat) : Option Instr :=
  if w % 2 ^ nbits < 2 ^ 32 then (decode (BitVec.ofNat 32 (w % 2 ^ nbits))).toOption else none

end Sys2Proof
end

