-- ==== Sys2Proof/Machine/Alphabet.lean ====
section
/-! DEFINITION. The alphabet table and its inverse (40_alphabet.md R110 to R118), shared by every command. -/

namespace Sys2Proof.Machine

/-- Entries 0 to 15 of the table of 40_alphabet.md R110. -/
def alphabet0 : List Byte :=
  [0x41, 0x42, 0x43, 0x44, 0x45, 0x46, 0x47, 0x48, 0x49, 0x4A, 0x4B, 0x4C, 0x4D, 0x4E, 0x4F, 0x50]

/-- Entries 16 to 31 of the table of 40_alphabet.md R110. -/
def alphabet1 : List Byte :=
  [0x51, 0x52, 0x53, 0x54, 0x55, 0x56, 0x57, 0x58, 0x59, 0x5A, 0x61, 0x62, 0x63, 0x64, 0x65, 0x66]

/-- Entries 32 to 47 of the table of 40_alphabet.md R110. -/
def alphabet2 : List Byte :=
  [0x67, 0x68, 0x69, 0x6A, 0x6B, 0x6C, 0x6D, 0x6E, 0x6F, 0x70, 0x71, 0x72, 0x73, 0x74, 0x75, 0x76]

/-- Entries 48 to 63 of the table of 40_alphabet.md R110. -/
def alphabet3 : List Byte :=
  [0x77, 0x78, 0x79, 0x7A, 0x30, 0x31, 0x32, 0x33, 0x34, 0x35, 0x36, 0x37, 0x38, 0x39, 0x2B, 0x2F]

/-- The alphabet table, a read-only constant (40_alphabet.md R111). -/
def alphabet : List Byte := alphabet0 ++ alphabet1 ++ alphabet2 ++ alphabet3

/-- `T[k]` (40_alphabet.md R110). The table has 64 entries, so the default is never read. -/
def T (k : Sextet) : Byte := alphabet.getD k.toNat 0

/-- `PAD`, the character `=` (40_alphabet.md R113). -/
def pad : Byte := 0x3D

/-- What `Index` returns. -/
inductive CharClass where
  | sextet (k : Sextet)
  | padding
  | invalid
deriving DecidableEq, Repr

/-- `Index(c)` (40_alphabet.md R114). -/
def index (c : Byte) : CharClass :=
  if 0x41 ≤ c.toNat ∧ c.toNat ≤ 0x5A then .sextet (BitVec.ofNat 6 (c.toNat - 0x41))
  else if 0x61 ≤ c.toNat ∧ c.toNat ≤ 0x7A then .sextet (BitVec.ofNat 6 (c.toNat - 0x61 + 26))
  else if 0x30 ≤ c.toNat ∧ c.toNat ≤ 0x39 then .sextet (BitVec.ofNat 6 (c.toNat - 0x30 + 52))
  else if c.toNat = 0x2B then .sextet 62
  else if c.toNat = 0x2F then .sextet 63
  else if c.toNat = 0x3D then .padding
  else .invalid

/-- The sextet of an alphabet character, none for `PAD` and for an invalid byte: neither is ever given an index
(40_alphabet.md R116, R117). -/
def alphaIndex (c : Byte) : Option Sextet :=
  match index c with
  | .sextet k => some k
  | .padding => none
  | .invalid => none

/-- `IsAlpha(c)` (40_alphabet.md R117). -/
def isAlpha (c : Byte) : Bool := (alphaIndex c).isSome

/-- `PadCount(a, b)` of the last two characters of a text (40_alphabet.md R118). -/
def padCount (a b : Byte) : Nat :=
  if b ≠ pad then 0
  else if a ≠ pad then 1
  else 2

end Sys2Proof.Machine
end

