-- ==== Sys2Proof/Config.lean ====
section
/-! DEFINITION. What the platform fixes (the OPEN parameters of 00_scope.md R8) and the free values (60_exceptions.md R207). -/

namespace Sys2Proof

/-- A run of data addresses `[first, first + size)`. -/
structure Region where
  first : Nat
  size : Nat
deriving DecidableEq, Repr, Inhabited

/-- The OPEN parameters of 00_scope.md R8 as plain data.
DESIGN CHOICE (safe, log 2): `Accessible` is given by the list of regions that answer; every predicate on the
`2^32` addresses can be written so. -/
structure Platform where
  /-- `B64_BASE`, the host address of the register window (D3). -/
  b64Base : Nat
  /-- Whether the register window stands in the same address map as the data memory (10_state.md R44, D24). -/
  windowInDataMap : Bool
  /-- The data addresses that answer the unit's bus access (20_memory.md R66, D19). -/
  answering : List Region
deriving DecidableEq, Repr, Inhabited

/-- The platform of the machine that `State.reset` describes: nothing is known of it (log 2, safe). -/
opaque Config.platform : Platform

/-- The free value number `k`: an unspecified byte of a destination window (60_exceptions.md R207,
70_reset_and_hazards.md R232). Nothing is known of it (log 4, safe). -/
opaque Config.freeByte : Nat → Byte

end Sys2Proof
end

