-- ==== Sys2Proof/Machine/Events.lean ====
section
/-! DEFINITION. What reaches the unit from outside: the events of the one total order of 20_memory.md R69, and the bus's
answers. -/

namespace Sys2Proof.Machine

/-- A host address, as the host's bus presents it. -/
inductive HostAddr where
  /-- the address `B64_BASE + offset`, wherever the window sits (30_encoding.md R98) -/
  | window (offset : Nat)
  /-- the address written as a number -/
  | absolute (a : Nat)
deriving DecidableEq, Repr

/-- One event of the order of 20_memory.md R69, and the reset events of 70_reset_and_hazards.md R230 and R232.
DESIGN CHOICE (log 1): what reaches the unit is a list of these. -/
inductive Event where
  /-- a host write of `v`, `width` bits wide; to `CMD` it starts a command (10_state.md R36) -/
  | hostWrite (addr : HostAddr) (width : Nat) (v : Word)
  /-- a host read, `width` bits wide (10_state.md R30) -/
  | hostRead (addr : HostAddr) (width : Nat)
  /-- another agent writes a byte of data memory (20_memory.md R69 (c)) -/
  | memWrite (a : Word) (v : Byte)
  /-- another agent reads a byte of data memory (20_memory.md R69 (c)) -/
  | memRead (a : Word)
  /-- a reset between commands (70_reset_and_hazards.md R230) -/
  | reset
  /-- a host write of `w` to `CMD`, and a reset asserted while that command is in progress
  (70_reset_and_hazards.md R232) -/
  | resetDuringCommand (w : Word)
deriving DecidableEq, Repr

/-- The answer to the last bus access (log 5). -/
inductive Response where
  /-- nothing was answered: no access since reset, an access outside the window, a command cut off by a reset -/
  | noAnswer
  /-- a write completed; for `CMD`, with its outcome recorded (10_state.md R36) -/
  | done
  /-- the 32-bit value a register read returns -/
  | data (v : Word)
  /-- the byte another agent reads from data memory -/
  | memByte (v : Byte)
  /-- the error response of 10_state.md R25 -/
  | error
deriving DecidableEq, Repr

end Sys2Proof.Machine
end

