-- ==== Sys2Proof/Machine/State.lean ====
section
/-! DEFINITION. The state of B64U and of the data memory it shares (10_state.md R20, R24, R44), as plain data. -/

namespace Sys2Proof.Machine

/-- Why the machine stops with a fault: it never does. "The unit never traps, never interrupts the host, never stops
accepting commands and never hangs" (60_exceptions.md R200), so there is no reason to name. -/
inductive Fault where
deriving DecidableEq, Repr

/-- Why the model gives no meaning. -/
inductive Refusal where
  /-- raised by an arm of `exec` whose command has no meaning yet (safe: the run ends). No arm does. -/
  | notModelled (mnemonic : String)
deriving DecidableEq, Repr

/-- The data memory: (address, byte) pairs in one canonical form, addresses strictly rising and below `2^32`, no entry
equal to what an unlisted address reads as (20_memory.md R60). -/
abbrev Memory := List Host.Cell

/-- The machine. `ID` and the alphabet table are constants, not fields (10_state.md R31, R43; log 6). -/
structure State where
  /-- `SRC_ADDR`, 10_state.md R32 -/
  srcAddr : Word
  /-- `SRC_LEN`, 10_state.md R33 -/
  srcLen : Word
  /-- `DST_ADDR`, 10_state.md R34 -/
  dstAddr : Word
  /-- `DST_CAP`, 10_state.md R35 -/
  dstCap : Word
  /-- `CMD`, 10_state.md R36 -/
  cmd : Word
  /-- `STATUS`, 10_state.md R37 -/
  status : Word
  /-- `RESULT`, 10_state.md R41 -/
  result : Word
  /-- `ERR_GROUP`, 10_state.md R42 -/
  errGroup : Word
  /-- the data memory, 20_memory.md R60 -/
  mem : Memory
  /-- the OPEN parameters `B64_BASE` and `Accessible`, 00_scope.md R8 (log 2) -/
  platform : Platform
  /-- the model's own: the events still to come, the next one first (log 1) -/
  pending : List Event
  /-- the model's own: the answer to the last bus access (log 5) -/
  response : Response
  /-- the model's own: how many free bytes have been drawn (log 4) -/
  draws : Nat
deriving DecidableEq, Repr

/-- The machine right after reset (70_reset_and_hazards.md R230): the registers hold the values that rule gives, and no
event is pending. DESIGN CHOICE: memory with nothing listed (log 3), `pending` (log 1), `response` (log 5), `draws`
(log 4); the platform is the free constant of Config (log 2). -/
def State.reset : State where
  srcAddr := 0x00000000
  srcLen := 0x00000000
  dstAddr := 0x00000000
  dstCap := 0x00000000
  cmd := 0x00000000
  status := 0x00000000
  result := 0x00000000
  errGroup := 0x00000000
  mem := []
  platform := Config.platform
  pending := []
  response := .noAnswer
  draws := 0

end Sys2Proof.Machine
end

