-- ==== Sys2Proof/Machine/Flags.lean ====
section
/-! DEFINITION. The outcome codes and the layout of `STATUS` (10_state.md R37 to R40, 60_exceptions.md R204). The unit has
no condition codes (10_state.md R23). -/

namespace Sys2Proof.Machine

/-- The invalid-argument sub-codes (10_state.md R39). -/
inductive Reason where
  | nullSrc
  | lenZero
  | lenNotMultiple
  | lenOutOfRange
  | srcWrap
  | nullDst
  | dstTooSmall
  | dstWrap
  | overlap
deriving DecidableEq, Repr

/-- The value of `STATUS.REASON` (10_state.md R39). -/
def Reason.code : Reason → Nibble
  | .nullSrc => 1
  | .lenZero => 2
  | .lenNotMultiple => 3
  | .lenOutOfRange => 4
  | .srcWrap => 5
  | .nullDst => 6
  | .dstTooSmall => 7
  | .dstWrap => 8
  | .overlap => 9

/-- The failing outcomes and the info each carries (60_exceptions.md R200, R204). -/
inductive Failure where
  | invalidArgument (r : Reason)
  | malformedInput (group : Nat)
  | illegalCommand
  | busError (group : Nat)
deriving DecidableEq, Repr

/-- `code(E)` (10_state.md R38, 60_exceptions.md R204). -/
def Failure.code : Failure → Nibble
  | .invalidArgument _ => 2
  | .malformedInput _ => 3
  | .illegalCommand => 4
  | .busError _ => 5

/-- `reason(E)`: 0 unless `E` is `InvalidArgument` (60_exceptions.md R206). -/
def Failure.reason : Failure → Nibble
  | .invalidArgument r => r.code
  | .malformedInput _ => 0
  | .illegalCommand => 0
  | .busError _ => 0

/-- `group(E)`: `g` for `MalformedInput(g)` and `BusError(g)`, else 0 (60_exceptions.md R206). -/
def Failure.group : Failure → Nat
  | .invalidArgument _ => 0
  | .malformedInput g => g
  | .illegalCommand => 0
  | .busError g => g

/-- The code `OK` (10_state.md R38). -/
def codeOk : Nibble := 1

/-- `zext_32(pads[1:0] ++ reason[3:0] ++ code[3:0])` (60_exceptions.md R205, R206). -/
def statusWord (pads : BitVec 2) (reason code : Nibble) : Word := (pads ++ reason ++ code).setWidth 32

/-- `STATUS.CODE` (10_state.md R37). -/
def codeField (w : Word) : Nibble := w.extractLsb' 0 4

/-- `STATUS.REASON` (10_state.md R37). -/
def reasonField (w : Word) : Nibble := w.extractLsb' 4 4

/-- `STATUS.PADS` (10_state.md R37). -/
def padsField (w : Word) : BitVec 2 := w.extractLsb' 8 2

/-- The reserved bits `STATUS[31:10]` (10_state.md R37). -/
def statusReserved (w : Word) : BitVec 22 := w.extractLsb' 10 22

end Sys2Proof.Machine
end

