-- ==== Sys2Proof/Machine/Ops.lean ====
section
/-! DEFINITION. The named operations over data memory (20_memory.md) and the recording of an outcome (60_exceptions.md
R205 to R207), written once. The unit has no trap entry and no trap return (60_exceptions.md R212, R213): `raise` is its
one way to end a command with an error. -/

namespace Sys2Proof.Machine

/-- What an unlisted address of data memory reads as. DESIGN CHOICE (unsafe, log 3): the spec does not give the memory's
contents at power-on. -/
def Memory.unlisted : Byte := 0x00

/-- `Mem(a)`. -/
def Memory.read : Memory → Nat → Byte
  | [], _ => Memory.unlisted
  | (b, v) :: rest, a => if b = a then v else Memory.read rest a

/-- The memory without its entry at `a`. -/
def Memory.erase (m : Memory) (a : Nat) : Memory := m.filter (fun c => decide (c.1 ≠ a))

/-- An entry put before the first one of a higher address. -/
def Memory.insert : Memory → Nat → Byte → Memory
  | [], a, v => [(a, v)]
  | (b, w) :: rest, a, v => if a < b then (a, v) :: (b, w) :: rest else (b, w) :: Memory.insert rest a v

/-- `Mem(a) <- v`, keeping the canonical form: writing what an unlisted address reads as removes the entry. -/
def Memory.write (m : Memory) (a : Nat) (v : Byte) : Memory :=
  if v = Memory.unlisted then Memory.erase m a else Memory.insert (Memory.erase m a) a v

/-- The canonical form above the address bound `lo`: addresses rise strictly from `lo` on and stay below `2^32`, and no
entry is what an unlisted address reads as. -/
def Memory.wfFrom : Nat → Memory → Bool
  | _, [] => true
  | lo, (a, v) :: rest =>
    decide (lo ≤ a) && decide (a < 2 ^ 32) && decide (v ≠ Memory.unlisted) && Memory.wfFrom (a + 1) rest

/-- The canonical form of a memory. -/
def Memory.wf (m : Memory) : Bool := Memory.wfFrom 0 m

/-- Whether the data address `a` belongs to the register window, where the two share one address map (10_state.md R44). -/
def Platform.inWindow (p : Platform) (a : Nat) : Bool :=
  p.windowInDataMap && decide (p.b64Base ≤ a) && decide (a < p.b64Base + 64)

/-- Whether the region covers `a`. -/
def Region.covers (r : Region) (a : Nat) : Bool := decide (r.first ≤ a) && decide (a < r.first + r.size)

/-- `Accessible(a)` (00_scope.md R8, 20_memory.md R66): false outside the `2^32` data addresses, and false on the register
window where it shares the data memory's address map (10_state.md R44). -/
def Platform.accessible (p : Platform) (a : Nat) : Bool :=
  decide (a < 2 ^ 32) && p.answering.any (fun r => Region.covers r a) && !(Platform.inWindow p a)

/-- `MemRead(a, 1)` (20_memory.md R60); none is `BusError` (R66). -/
def memRead (p : Platform) (m : Memory) (a : Nat) : Option Byte :=
  if Platform.accessible p a = true then some (Memory.read m a) else none

/-- `MemWrite(a, 1, v)` (20_memory.md R60); none is `BusError` (R66). -/
def memWrite (p : Platform) (m : Memory) (a : Nat) (v : Byte) : Option Memory :=
  if Platform.accessible p a = true then some (Memory.write m a v) else none

/-- `MemWrite` of the bytes in ascending order from `a` (20_memory.md R65). -/
def memWriteSeq (p : Platform) : Memory → Nat → List Byte → Option Memory
  | m, _, [] => some m
  | m, a, v :: rest =>
    match memWrite p m a v with
    | none => none
    | some m' => memWriteSeq p m' (a + 1) rest

/-- `for g in ...`: `body` on the groups `g`, `g + 1`, ... (`count` of them) in ascending order, ended by the first
failure (00_scope.md R13, 60_exceptions.md R202). -/
def forGroups (body : Nat → Memory → Except Failure Memory) : Nat → Nat → Memory → Except Failure Memory
  | 0, _, m => .ok m
  | count + 1, g, m =>
    match body g m with
    | .error e => .error e
    | .ok m' => forGroups body count (g + 1) m'

/-- Every accessible byte of `[base, base + len)` takes a free value, the draws numbered from `k` on; nothing else changes
(60_exceptions.md R207). -/
def drawBytes (p : Platform) (base k : Nat) : Nat → Memory → Memory
  | 0, m => m
  | len + 1, m =>
    if Platform.accessible p (base + len) = true then
      Memory.write (drawBytes p base k len m) (base + len) (Config.freeByte (k + len))
    else drawBytes p base k len m

/-- The destination window `[DST_ADDR, DST_ADDR + out)` becomes unspecified (60_exceptions.md R207). -/
def drawWindow (out : Nat) (s : State) : State :=
  { s with mem := drawBytes s.platform s.dstAddr.toNat s.draws out s.mem, draws := s.draws + out }

/-- `finish(result, pads)` (60_exceptions.md R205). -/
def finish (result pads : Nat) (s : State) : State :=
  { s with
    status := statusWord (BitVec.ofNat 2 pads) 0 codeOk
    result := BitVec.ofNat 32 result
    errGroup := 0 }

/-- `raise E(info)` (60_exceptions.md R206), memory as it is. -/
def raise (e : Failure) (s : State) : State :=
  { s with
    status := statusWord 0 e.reason e.code
    result := 0
    errGroup := BitVec.ofNat 32 e.group }

/-- The end of a command whose destination checks have passed, `run` being what its accesses left: success writes that
memory; a failure leaves the destination window unspecified and every other byte as the command found it
(60_exceptions.md R207). -/
def conclude (out pads : Nat) (run : Except Failure Memory) (s : State) : State :=
  match run with
  | .ok m => finish out pads { s with mem := m }
  | .error e => raise e (drawWindow out s)

end Sys2Proof.Machine
end

