-- ==== Sys2Proof/Machine/Operands.lean ====
section
/-! DEFINITION. The operands of a command (30_encoding.md R92) and the argument checks (60_exceptions.md R203), on unbounded
naturals (00_scope.md R12). -/

namespace Sys2Proof.Machine

/-- The operand registers as a command samples them: `S`, `n`, `D`, `C`. -/
structure Operands where
  src : Nat
  len : Nat
  dst : Nat
  cap : Nat
deriving DecidableEq, Repr

/-- The operand registers as they stand (30_encoding.md R92). -/
def operands (s : State) : Operands where
  src := s.srcAddr.toNat
  len := s.srcLen.toNat
  dst := s.dstAddr.toNat
  cap := s.dstCap.toNat

/-- The length classes of 60_exceptions.md R203. -/
inductive LenClass where
  | bulk3
  | bound3
  | bulk4
  | bound4
  | size4
deriving DecidableEq, Repr

/-- The length check of one class; none when the length passes (60_exceptions.md R203). -/
def checkLen (n : Nat) : LenClass → Option Reason
  | .bulk3 => if n % 3 ≠ 0 then some .lenNotMultiple else none
  | .bound3 => if n > 2 then some .lenOutOfRange else none
  | .bulk4 => if n % 4 ≠ 0 then some .lenNotMultiple else none
  | .bound4 => if n ≠ 4 then some .lenOutOfRange else none
  | .size4 => if n % 4 ≠ 0 then some .lenNotMultiple else none

/-- `CheckSrc(S, n, K)`: the first check that fails, none when all pass (60_exceptions.md R203). -/
def checkSrc (o : Operands) (K : LenClass) : Option Reason :=
  if o.src = 0 then some .nullSrc
  else if o.len = 0 then some .lenZero
  else match checkLen o.len K with
    | some r => some r
    | none => if o.src + o.len > 2 ^ 32 then some .srcWrap else none

/-- `CheckDst(S, n, D, C, out)`: the first check that fails, none when all pass (60_exceptions.md R203). -/
def checkDst (o : Operands) (out : Nat) : Option Reason :=
  if o.dst = 0 then some .nullDst
  else if out > o.cap then some .dstTooSmall
  else if o.dst + out > 2 ^ 32 then some .dstWrap
  else if o.src < o.dst + out ∧ o.dst < o.src + o.len then some .overlap
  else none

/-- Both checks in the order of 60_exceptions.md R202; the output length when they pass. -/
def checkArgs (o : Operands) (K : LenClass) (out : Nat) : Except Failure Nat :=
  match checkSrc o K with
  | some r => .error (.invalidArgument r)
  | none =>
    match checkDst o out with
    | some r => .error (.invalidArgument r)
    | none => .ok out

end Sys2Proof.Machine
end

