-- ==== Sys2Proof/Machine/DecodeCommands.lean ====
section
/-! DEFINITION. The meanings of `DEC_BULK` and `DEC_BOUND` (42_decode.md). The formulas are on 8-bit vectors: every value
stays below 256, so they agree with the naturals of 00_scope.md R11 (log 12). -/

namespace Sys2Proof.Machine

/-- `b0 = (i0 << 2) | (i1 >> 4)` (42_decode.md R150). -/
def decB0 (i0 i1 : Sextet) : Byte := (i0.setWidth 8 <<< 2) ||| (i1.setWidth 8 >>> 4)

/-- `b1 = ((i1 & 0x0F) << 4) | (i2 >> 2)` (42_decode.md R150). -/
def decB1 (i1 i2 : Sextet) : Byte := ((i1.setWidth 8 &&& 0x0F) <<< 4) ||| (i2.setWidth 8 >>> 2)

/-- `b2 = ((i2 & 0x03) << 6) | i3` (42_decode.md R150). -/
def decB2 (i2 i3 : Sextet) : Byte := ((i2.setWidth 8 &&& 0x03) <<< 6) ||| i3.setWidth 8

/-- `Dec4` (42_decode.md R150). -/
def dec4 (i0 i1 i2 i3 : Sextet) : List Byte := [decB0 i0 i1, decB1 i1 i2, decB2 i2 i3]

/-- The four characters of the group at `a`, read in ascending order; none is `BusError`. -/
def readChars (p : Platform) (m : Memory) (a : Nat) : Option (Byte × Byte × Byte × Byte) :=
  match memRead p m a, memRead p m (a + 1), memRead p m (a + 2), memRead p m (a + 3) with
  | some c0, some c1, some c2, some c3 => some (c0, c1, c2, c3)
  | _, _, _, _ => none

/-- The bytes of a full group; none when a character is not an alphabet character, a `PAD` included (42_decode.md R153). -/
def fullBytes (c0 c1 c2 c3 : Byte) : Option (List Byte) :=
  match alphaIndex c0, alphaIndex c1, alphaIndex c2, alphaIndex c3 with
  | some i0, some i1, some i2, some i3 => some (dec4 i0 i1 i2 i3)
  | _, _, _, _ => none

/-- One pass of the loop of 42_decode.md R152: four reads (`BusError`), validation (`MalformedInput`), three writes
(`BusError`), in that order (60_exceptions.md R202). -/
def decodeGroup (p : Platform) (src dst g : Nat) (m : Memory) : Except Failure Memory :=
  match readChars p m (src + 4 * g) with
  | none => .error (.busError g)
  | some (c0, c1, c2, c3) =>
    match fullBytes c0 c1 c2 c3 with
    | none => .error (.malformedInput g)
    | some bytes =>
      match memWriteSeq p m (dst + 3 * g) bytes with
      | none => .error (.busError g)
      | some m' => .ok m'

/-- The output length of `DEC_BULK` (30_encoding.md R93). -/
def decBulkOut (o : Operands) : Nat := 3 * (o.len / 4)

/-- The checks of `DEC_BULK`, and its output length when they pass. -/
def decBulkPrepare (s : State) : Except Failure Nat := checkArgs (operands s) .bulk4 (decBulkOut (operands s))

/-- `DEC_BULK` (42_decode.md R152). -/
def decBulk (s : State) : State :=
  match decBulkPrepare s with
  | .error e => raise e s
  | .ok out =>
    conclude out 0
      (forGroups (decodeGroup s.platform (operands s).src (operands s).dst) ((operands s).len / 4) 0 s.mem) s

/-- The meaning of `DEC_BULK`. -/
def execDecBulk (s : State) : Host.Outcome State Fault Refusal := .next (decBulk s)

/-- The bytes of a final group with `p` = `PadCount(c2, c3)`: one always, the second when `p <= 1`, the third when `p = 0`
(42_decode.md R154); none when `TailValid` is false (R155). The bits of a sextet that no byte takes are not looked at
(R156). -/
def tailBytes (c0 c1 c2 c3 : Byte) : Option (List Byte) :=
  match alphaIndex c0, alphaIndex c1 with
  | some i0, some i1 =>
    if padCount c2 c3 = 2 then some [decB0 i0 i1]
    else
      match alphaIndex c2 with
      | none => none
      | some i2 =>
        if padCount c2 c3 = 1 then some [decB0 i0 i1, decB1 i1 i2]
        else
          match alphaIndex c3 with
          | none => none
          | some i3 => some (dec4 i0 i1 i2 i3)
  | _, _ => none

/-- What `DEC_BOUND` knows once its destination checks have passed: the four characters and the output length. -/
structure TailGroup where
  c0 : Byte
  c1 : Byte
  c2 : Byte
  c3 : Byte
  out : Nat
deriving DecidableEq, Repr

/-- `DEC_BOUND` up to its destination checks: the source checks, the four reads, then the checks of the output length
`3 - p`, which depends on what was read (42_decode.md R154, 60_exceptions.md R202). -/
def decBoundPrepare (s : State) : Except Failure TailGroup :=
  match checkSrc (operands s) .bound4 with
  | some r => .error (.invalidArgument r)
  | none =>
    match readChars s.platform s.mem (operands s).src with
    | none => .error (.busError 0)
    | some (c0, c1, c2, c3) =>
      match checkDst (operands s) (3 - padCount c2 c3) with
      | some r => .error (.invalidArgument r)
      | none => .ok ⟨c0, c1, c2, c3, 3 - padCount c2 c3⟩

/-- `DEC_BOUND` after its destination checks: validation, then the writes; its one group is group 0
(60_exceptions.md R208, R209). -/
def decBoundRun (s : State) (t : TailGroup) : Except Failure Memory :=
  match tailBytes t.c0 t.c1 t.c2 t.c3 with
  | none => .error (.malformedInput 0)
  | some bytes =>
    match memWriteSeq s.platform s.mem (operands s).dst bytes with
    | none => .error (.busError 0)
    | some m => .ok m

/-- `DEC_BOUND` (42_decode.md R154). -/
def decBound (s : State) : State :=
  match decBoundPrepare s with
  | .error e => raise e s
  | .ok t => conclude t.out (padCount t.c2 t.c3) (decBoundRun s t) s

/-- The meaning of `DEC_BOUND`. -/
def execDecBound (s : State) : Host.Outcome State Fault Refusal := .next (decBound s)

end Sys2Proof.Machine
end

