-- ==== Sys2Proof/Machine/EncodeCommands.lean ====
section
/-! DEFINITION. The meanings of `ENC_BULK` and `ENC_BOUND` (41_encode.md). The formulas are on 8-bit vectors: every value
stays below 256, so they agree with the naturals of 00_scope.md R11 (log 12). -/

namespace Sys2Proof.Machine

/-- `s0 = b0 >> 2` (41_encode.md R130). -/
def encS0 (b0 : Byte) : Sextet := (b0 >>> 2).setWidth 6

/-- `s1 = ((b0 & 0x03) << 4) | (b1 >> 4)` (41_encode.md R130). -/
def encS1 (b0 b1 : Byte) : Sextet := (((b0 &&& 0x03) <<< 4) ||| (b1 >>> 4)).setWidth 6

/-- `s2 = ((b1 & 0x0F) << 2) | (b2 >> 6)` (41_encode.md R130). -/
def encS2 (b1 b2 : Byte) : Sextet := (((b1 &&& 0x0F) <<< 2) ||| (b2 >>> 6)).setWidth 6

/-- `s3 = b2 & 0x3F` (41_encode.md R130). -/
def encS3 (b2 : Byte) : Sextet := (b2 &&& 0x3F).setWidth 6

/-- `Enc3` (41_encode.md R130). -/
def enc3 (b0 b1 b2 : Byte) : List Byte := [T (encS0 b0), T (encS1 b0 b1), T (encS2 b1 b2), T (encS3 b2)]

/-- One pass of the loop of 41_encode.md R131: three reads, then four writes (`BusError` in any of them). -/
def encodeGroup (p : Platform) (src dst g : Nat) (m : Memory) : Except Failure Memory :=
  match memRead p m (src + 3 * g), memRead p m (src + 3 * g + 1), memRead p m (src + 3 * g + 2) with
  | some b0, some b1, some b2 =>
    match memWriteSeq p m (dst + 4 * g) (enc3 b0 b1 b2) with
    | none => .error (.busError g)
    | some m' => .ok m'
  | _, _, _ => .error (.busError g)

/-- The output length of `ENC_BULK` (30_encoding.md R93). -/
def encBulkOut (o : Operands) : Nat := 4 * (o.len / 3)

/-- The checks of `ENC_BULK`, and its output length when they pass. -/
def encBulkPrepare (s : State) : Except Failure Nat := checkArgs (operands s) .bulk3 (encBulkOut (operands s))

/-- `ENC_BULK` (41_encode.md R131). -/
def encBulk (s : State) : State :=
  match encBulkPrepare s with
  | .error e => raise e s
  | .ok out =>
    conclude out 0
      (forGroups (encodeGroup s.platform (operands s).src (operands s).dst) ((operands s).len / 3) 0 s.mem) s

/-- The meaning of `ENC_BULK`. -/
def execEncBulk (s : State) : Host.Outcome State Fault Refusal := .next (encBulk s)

/-- The four characters of the leftover group of `n` bytes, the absent bytes contributing zero bits (41_encode.md R133). -/
def boundChars (n : Nat) (b0 b1 : Byte) : List Byte :=
  [T (encS0 b0), T (encS1 b0 b1), if n = 2 then T (encS2 b1 0x00) else pad, pad]

/-- `b1` of 41_encode.md R133: read only when `n = 2`; an absent byte is zero. -/
def readSecond (p : Platform) (m : Memory) (src n : Nat) : Option Byte :=
  if n = 2 then memRead p m (src + 1) else some 0x00

/-- The accesses of 41_encode.md R133; none is `BusError`. -/
def encodeTail (p : Platform) (src dst n : Nat) (m : Memory) : Option Memory :=
  match memRead p m src with
  | none => none
  | some b0 =>
    match readSecond p m src n with
    | none => none
    | some b1 => memWriteSeq p m dst (boundChars n b0 b1)

/-- The accesses of `ENC_BOUND` with the outcome they end in: its one group is group 0 (60_exceptions.md R208). -/
def encBoundRun (s : State) : Except Failure Memory :=
  match encodeTail s.platform (operands s).src (operands s).dst (operands s).len s.mem with
  | none => .error (.busError 0)
  | some m => .ok m

/-- The checks of `ENC_BOUND`, and its output length when they pass. -/
def encBoundPrepare (s : State) : Except Failure Nat := checkArgs (operands s) .bound3 4

/-- `ENC_BOUND` (41_encode.md R133). -/
def encBound (s : State) : State :=
  match encBoundPrepare s with
  | .error e => raise e s
  | .ok out => conclude out (3 - (operands s).len) (encBoundRun s) s

/-- The meaning of `ENC_BOUND`. -/
def execEncBound (s : State) : Host.Outcome State Fault Refusal := .next (encBound s)

end Sys2Proof.Machine
end

