-- ==== Sys2Proof/Machine/SizeCommand.lean ====
section
/-! DEFINITION. The meaning of `DEC_SIZE` (43_size.md). -/

namespace Sys2Proof.Machine

/-- The decoded size of a text of `n` characters with pad count `p` (43_size.md R180). -/
def decodedSize (n p : Nat) : Nat := (n / 4 - 1) * 3 + (3 - p)

/-- The last two characters of the text, the lower address first; none is `BusError` (43_size.md R180). -/
def readLastTwo (s : State) : Option (Byte × Byte) :=
  match memRead s.platform s.mem ((operands s).src + (operands s).len - 2) with
  | none => none
  | some a =>
    match memRead s.platform s.mem ((operands s).src + (operands s).len - 1) with
    | none => none
    | some b => some (a, b)

/-- `DEC_SIZE` (43_size.md R180): no character is validated, and the destination registers are not read (R183). -/
def decSize (s : State) : State :=
  match checkSrc (operands s) .size4 with
  | some r => raise (.invalidArgument r) s
  | none =>
    match readLastTwo s with
    | none => raise (.busError ((operands s).len / 4 - 1)) s
    | some (a, b) => finish (decodedSize (operands s).len (padCount a b)) (padCount a b) s

/-- The meaning of `DEC_SIZE`. -/
def execDecSize (s : State) : Host.Outcome State Fault Refusal := .next (decSize s)

end Sys2Proof.Machine
end

