-- ==== Sys2Proof/Machine/Dispatch.lean ====
section
/-! DEFINITION. The dispatch of 30_encoding.md R95: one arm per command. -/

namespace Sys2Proof.Machine

def exec (i : Instr) (s : State) : Host.Outcome State Fault Refusal :=
  match i with
  | .encBulk => Sys2Proof.Machine.execEncBulk s
  | .encBound => Sys2Proof.Machine.execEncBound s
  | .decBulk => Sys2Proof.Machine.execDecBulk s
  | .decBound => Sys2Proof.Machine.execDecBound s
  | .decSize => Sys2Proof.Machine.execDecSize s

end Sys2Proof.Machine
end

