-- ==== Sys2Proof/Machine/Registers.lean ====
section
/-! DEFINITION. The register window: the map, the host's reads and writes, and reset (10_state.md R24 to R42,
70_reset_and_hazards.md R230). -/

namespace Sys2Proof.Machine

/-- The words of the register window (10_state.md R24). -/
inductive Reg where
  | id
  | srcAddr
  | srcLen
  | dstAddr
  | dstCap
  | cmd
  | status
  | result
  | errGroup
  /-- one of the offsets 0x24 to 0x3C -/
  | reserved
deriving DecidableEq, Repr

/-- The word at an offset of the window that is a multiple of 4 (10_state.md R24). -/
def regAt (offset : Nat) : Reg :=
  if offset = 0x00 then .id
  else if offset = 0x04 then .srcAddr
  else if offset = 0x08 then .srcLen
  else if offset = 0x0C then .dstAddr
  else if offset = 0x10 then .dstCap
  else if offset = 0x14 then .cmd
  else if offset = 0x18 then .status
  else if offset = 0x1C then .result
  else if offset = 0x20 then .errGroup
  else .reserved

/-- The offset of a register (10_state.md R24); for the reserved words, the first of them. -/
def Reg.offset : Reg → Nat
  | .id => 0x00
  | .srcAddr => 0x04
  | .srcLen => 0x08
  | .dstAddr => 0x0C
  | .dstCap => 0x10
  | .cmd => 0x14
  | .status => 0x18
  | .result => 0x1C
  | .errGroup => 0x20
  | .reserved => 0x24

/-- `ID`: `MAGIC` 0x423634 above `VERSION` 0x01, hard-wired (10_state.md R31). -/
def idValue : Word := 0x42363401

/-- `x[NAME]`: what a read of a word of the window returns (10_state.md R24, R26, R31 to R42). -/
def readReg (r : Reg) (s : State) : Word :=
  match r with
  | .id => idValue
  | .srcAddr => s.srcAddr
  | .srcLen => s.srcLen
  | .dstAddr => s.dstAddr
  | .dstCap => s.dstCap
  | .cmd => s.cmd
  | .status => s.status
  | .result => s.result
  | .errGroup => s.errGroup
  | .reserved => 0

/-- What a host write stores: the operand registers and `CMD` take all 32 bits (10_state.md R28, R36), the read-only
registers and the reserved words nothing (R26, R27). -/
def storeReg (r : Reg) (v : Word) (s : State) : State :=
  match r with
  | .srcAddr => { s with srcAddr := v }
  | .srcLen => { s with srcLen := v }
  | .dstAddr => { s with dstAddr := v }
  | .dstCap => { s with dstCap := v }
  | .cmd => { s with cmd := v }
  | .id => s
  | .status => s
  | .result => s
  | .errGroup => s
  | .reserved => s

/-- The offset in the register window of a host address; none outside the window (10_state.md R24). -/
def HostAddr.offset? (p : Platform) : HostAddr → Option Nat
  | .window o => if o < 64 then some o else none
  | .absolute a => if p.b64Base ≤ a ∧ a < p.b64Base + 64 then some (a - p.b64Base) else none

/-- Where a host access goes. -/
inductive Target where
  /-- not an address of the window -/
  | outside
  /-- an address of the window, but not a 32-bit access at a multiple of 4 (10_state.md R25) -/
  | badAccess
  | register (r : Reg)
deriving DecidableEq, Repr

/-- Where a host access of `width` bits goes (10_state.md R24, R25). -/
def target (p : Platform) (addr : HostAddr) (width : Nat) : Target :=
  match HostAddr.offset? p addr with
  | none => .outside
  | some o => if width = 32 ∧ o % 4 = 0 then .register (regAt o) else .badAccess

/-- The bus's answer to the last access (log 5). -/
def answer (r : Response) (s : State) : State := { s with response := r }

/-- A host read: no side effect on any register or on memory (10_state.md R30). -/
def hostRead (addr : HostAddr) (width : Nat) (s : State) : State :=
  match target s.platform addr width with
  | .outside => answer .noAnswer s
  | .badAccess => answer .error s
  | .register r => answer (.data (readReg r s)) s

/-- Another agent's write of a byte of data memory (20_memory.md R69 (c)). On the register window, where the two share one
address map, it is a byte access to the window and has no effect (10_state.md R25, R44; log 8). -/
def otherWrite (a : Word) (v : Byte) (s : State) : State :=
  if Platform.inWindow s.platform a.toNat = true then answer .error s
  else answer .done { s with mem := Memory.write s.mem a.toNat v }

/-- Another agent's read of a byte of data memory (20_memory.md R69 (c); log 8). -/
def otherRead (a : Word) (s : State) : State :=
  if Platform.inWindow s.platform a.toNat = true then answer .error s
  else answer (.memByte (Memory.read s.mem a.toNat)) s

/-- A reset of the unit: every register takes its reset value, and nothing else changes (70_reset_and_hazards.md R230,
R231). -/
def resetUnit (s : State) : State :=
  { State.reset with mem := s.mem, platform := s.platform, pending := s.pending, draws := s.draws }

end Sys2Proof.Machine
end

