-- ==== Sys2Proof/Machine/Execute.lean ====
section
/-! DEFINITION. `Execute(w)` (30_encoding.md R95) and what each event does to the unit (20_memory.md R69). -/

namespace Sys2Proof.Machine

/-- `Execute(w)` (30_encoding.md R95): an illegal word ends `IllegalCommand` and reads nothing (R96). -/
def execute (w : Word) (s : State) : Host.Outcome State Fault Refusal :=
  match decode w with
  | .ok i => exec i s
  | .error _ => .next (raise .illegalCommand s)

/-- A host write: to `CMD` it stores the word, then runs the command to its end (10_state.md R36); to another register it
stores what that register takes. -/
def hostWrite (addr : HostAddr) (width : Nat) (v : Word) (s : State) : Host.Outcome State Fault Refusal :=
  match target s.platform addr width with
  | .outside => .next (answer .noAnswer s)
  | .badAccess => .next (answer .error s)
  | .register r =>
    if r = .cmd then execute v (answer .done (storeReg .cmd v s))
    else .next (answer .done (storeReg r v s))

/-- The output length of the destination window of a command, once its destination checks have passed: none before that,
and none for `DEC_SIZE`, which has no window (60_exceptions.md R207). -/
def windowLength (i : Instr) (s : State) : Option Nat :=
  match i with
  | .encBulk => (encBulkPrepare s).toOption
  | .encBound => (encBoundPrepare s).toOption
  | .decBulk => (decBulkPrepare s).toOption
  | .decBound => ((decBoundPrepare s).toOption).map TailGroup.out
  | .decSize => none

/-- A command cut off by a reset leaves the accessible bytes of its destination window unspecified (70_reset_and_hazards.md
R232; log 7). -/
def cutOff (w : Word) (s : State) : State :=
  match decode w with
  | .error _ => s
  | .ok i =>
    match windowLength i s with
    | none => s
    | some out => drawWindow out s

/-- What one event does. -/
def handle (e : Event) (s : State) : Host.Outcome State Fault Refusal :=
  match e with
  | .hostWrite addr width v => hostWrite addr width v s
  | .hostRead addr width => .next (hostRead addr width s)
  | .memWrite a v => .next (otherWrite a v s)
  | .memRead a => .next (otherRead a s)
  | .reset => .next (resetUnit s)
  | .resetDuringCommand w => .next (resetUnit (cutOff w s))

end Sys2Proof.Machine
end

