-- ==== Sys2Proof/Machine/Step.lean ====
section
/-! DEFINITION. One step: the next event of the order of 20_memory.md R69 (log 1). -/

namespace Sys2Proof.Machine

/-- One step takes the next pending event; with none pending the unit is idle (70_reset_and_hazards.md R233). -/
def step (s : State) : Host.Outcome State Fault Refusal :=
  match s.pending with
  | [] => .next s
  | e :: rest => handle e { s with pending := rest }

/-- The command word of `nbits` bits as the next event: a host write of it to `CMD` (10_state.md R36). The unit fetches
no instruction (R22), so this is all a command takes (log 1). -/
def State.withFetchWord (s : State) (nbits w : Nat) : State :=
  { s with pending := .hostWrite (.window 0x14) 32 (BitVec.ofNat 32 (w % 2 ^ nbits)) :: s.pending }

end Sys2Proof.Machine
end

