-- ==== Sys2Proof/Machine/HostSequences.lean ====
section
/-! DEFINITION. Host software over the unit: the assembly notation (30_encoding.md R98, R99) and the reference sequences
ENCODE and DECODE (44_host_sequences.md R190 to R195). The unit does not execute these sequences; they are the host's. -/

namespace Sys2Proof.Machine

/-- `wr NAME, v` (30_encoding.md R98). -/
def wr (r : Reg) (v : Word) : Event := .hostWrite (.window r.offset) 32 v

/-- `rd NAME` (30_encoding.md R98). -/
def rd (r : Reg) : Event := .hostRead (.window r.offset) 32

/-- `b64.enc_bulk s, n, d, c` (30_encoding.md R99). -/
def b64EncBulk (s n d c : Word) : List Event :=
  [wr .srcAddr s, wr .srcLen n, wr .dstAddr d, wr .dstCap c, wr .cmd (encode .encBulk)]

/-- `b64.enc_bound s, n, d, c` (30_encoding.md R99). -/
def b64EncBound (s n d c : Word) : List Event :=
  [wr .srcAddr s, wr .srcLen n, wr .dstAddr d, wr .dstCap c, wr .cmd (encode .encBound)]

/-- `b64.dec_bulk s, n, d, c` (30_encoding.md R99). -/
def b64DecBulk (s n d c : Word) : List Event :=
  [wr .srcAddr s, wr .srcLen n, wr .dstAddr d, wr .dstCap c, wr .cmd (encode .decBulk)]

/-- `b64.dec_bound s, d, c` (30_encoding.md R99). -/
def b64DecBound (s d c : Word) : List Event :=
  [wr .srcAddr s, wr .srcLen 4, wr .dstAddr d, wr .dstCap c, wr .cmd (encode .decBound)]

/-- `b64.dec_size s, n` (30_encoding.md R99). -/
def b64DecSize (s n : Word) : List Event := [wr .srcAddr s, wr .srcLen n, wr .cmd (encode .decSize)]

/-- `b64.status` (30_encoding.md R99). -/
def b64Status : List Event := [rd .status, rd .result, rd .errGroup]

/-- The events in order, one at a time: a pseudo-instruction is not atomic (30_encoding.md R99). -/
def perform : List Event → State → Host.Outcome State Fault Refusal
  | [], s => .next s
  | e :: rest, s =>
    match handle e s with
    | .next t => perform rest t
    | .fault r => .fault r
    | .refused r => .refused r

/-- The outcome `(code, reason, count)` of a reference sequence (44_host_sequences.md R190). -/
structure SeqOutcome where
  code : Nibble
  reason : Nibble
  count : Nat
deriving DecidableEq, Repr

/-- What a sequence returns, and the machine it leaves. -/
abbrev SeqRun := Host.Outcome (SeqOutcome × State) Fault Refusal

/-- `(OK, NONE, count)` (44_host_sequences.md R191, R193). -/
def seqOk (count : Nat) (s : State) : SeqRun := .next (⟨codeOk, 0, count⟩, s)

/-- `(INVALID_ARGUMENT, r, 0)`, returned by the host itself (44_host_sequences.md R191, R193). -/
def seqReject (r : Reason) (s : State) : SeqRun :=
  .next (⟨(Failure.invalidArgument r).code, r.code, 0⟩, s)

/-- One command, then `b64.status`; stop unless `OK` (44_host_sequences.md R190). -/
def commandThen (es : List Event) (next : State → SeqRun) (s : State) : SeqRun :=
  match perform (es ++ b64Status) s with
  | .next t =>
    if codeField (readReg .status t) = codeOk then next t
    else .next (⟨codeField (readReg .status t), reasonField (readReg .status t), (readReg .result t).toNat⟩, t)
  | .fault r => .fault r
  | .refused r => .refused r

/-- The 32-bit value the host writes for a number it computed. A number of `2^32` or more is reduced (log 10). -/
def word (n : Nat) : Word := BitVec.ofNat 32 n

/-- `L = 4 * ceil(n / 3)`, the length of the encoded text (44_host_sequences.md R191). -/
def textLength (n : Nat) : Nat := 4 * ((n + 2) / 3)

/-- The last step of ENCODE: the leftover group, if there is one (44_host_sequences.md R191). -/
def refEncodeTail (S n D C : Nat) (s : State) : SeqRun :=
  if n % 3 > 0 then
    commandThen (b64EncBound (word (S + 3 * (n / 3))) (word (n % 3)) (word (D + 4 * (n / 3))) (word (C - 4 * (n / 3))))
      (seqOk (textLength n)) s
  else seqOk (textLength n) s

/-- `ENCODE(S, n, D, C)` (44_host_sequences.md R191). -/
def refEncode (S n D C : Word) (s : State) : SeqRun :=
  if n.toNat = 0 then seqReject .lenZero s
  else if S.toNat ≠ 0 ∧ D.toNat ≠ 0 ∧ S.toNat + n.toNat ≤ 2 ^ 32 ∧ D.toNat + textLength n.toNat ≤ 2 ^ 32 ∧
      S.toNat < D.toNat + textLength n.toNat ∧ D.toNat < S.toNat + n.toNat then
    seqReject .overlap s
  else if n.toNat / 3 > 0 then
    commandThen (b64EncBulk S (word (3 * (n.toNat / 3))) D C) (refEncodeTail S.toNat n.toNat D.toNat C.toNat) s
  else refEncodeTail S.toNat n.toNat D.toNat C.toNat s

/-- The last step of DECODE: the final group, `m` being the decoded size (44_host_sequences.md R193). -/
def refDecodeTail (S n D C m : Nat) (s : State) : SeqRun :=
  commandThen (b64DecBound (word (S + n - 4)) (word (D + 3 * (n / 4 - 1))) (word (C - 3 * (n / 4 - 1)))) (seqOk m) s

/-- DECODE after `DEC_SIZE` answered `m` (44_host_sequences.md R193). -/
def refDecodeSized (S n D C : Word) (m : Nat) (s : State) : SeqRun :=
  if D.toNat ≠ 0 ∧ D.toNat + m ≤ 2 ^ 32 ∧ S.toNat < D.toNat + m ∧ D.toNat < S.toNat + n.toNat then
    seqReject .overlap s
  else if n.toNat / 4 > 1 then
    commandThen (b64DecBulk S (word (n.toNat - 4)) D C) (refDecodeTail S.toNat n.toNat D.toNat C.toNat m) s
  else refDecodeTail S.toNat n.toNat D.toNat C.toNat m s

/-- `DECODE(S, n, D, C)`, the steps of 44_host_sequences.md R193; two laws of R194 need a window that does not wrap
(log 13). -/
def refDecode (S n D C : Word) (s : State) : SeqRun :=
  commandThen (b64DecSize S n) (fun t => refDecodeSized S n D C (readReg .result t).toNat t) s

end Sys2Proof.Machine
end

