-- ==== Sys2Proof/Safety.lean ====
section
/-! DEFINITION. The terms in which claims about B64U are stated: when a command's operands are usable, what an outcome is,
what a command leaves alone, and the invariant of the registers and the memory. -/

namespace Sys2Proof.Machine

/-- Every byte of `[base, base + len)` answers the unit (20_memory.md R66). -/
abbrev Answers (p : Platform) (base len : Nat) : Prop := ∀ k, k < len → Platform.accessible p (base + k) = true

/-- The source lengths a class accepts (30_encoding.md R93). -/
abbrev LenAccepted (K : LenClass) (n : Nat) : Prop :=
  match K with
  | .bulk3 => 3 ≤ n ∧ n % 3 = 0
  | .bound3 => n = 1 ∨ n = 2
  | .bulk4 => 4 ≤ n ∧ n % 4 = 0
  | .bound4 => n = 4
  | .size4 => 4 ≤ n ∧ n % 4 = 0

/-- The source operands pass the checks of 60_exceptions.md R203. -/
abbrev SrcUsable (o : Operands) (K : LenClass) : Prop := o.src ≠ 0 ∧ LenAccepted K o.len ∧ o.src + o.len ≤ 2 ^ 32

/-- The windows `[a, a + m)` and `[b, b + n)` share no byte. -/
abbrev WindowsApart (a m b n : Nat) : Prop := a + m ≤ b ∨ b + n ≤ a

/-- The destination operands pass the checks of 60_exceptions.md R203 for an output of `out` bytes. -/
abbrev DstUsable (o : Operands) (out : Nat) : Prop :=
  o.dst ≠ 0 ∧ out ≤ o.cap ∧ o.dst + out ≤ 2 ^ 32 ∧ WindowsApart o.src o.len o.dst out

/-- The outcome registers hold exactly this: `STATUS` = PADS, REASON and CODE with zeros above (10_state.md R37),
`RESULT` and `ERR_GROUP`. -/
abbrev OutcomeIs (t : State) (pads reason code result group : Nat) : Prop :=
  t.status.toNat = 256 * pads + 16 * reason + code ∧ t.result.toNat = result ∧ t.errGroup.toNat = group

/-- The operand registers, `CMD` and what is not the unit's are as they were. -/
abbrev SameInputs (s t : State) : Prop :=
  t.srcAddr = s.srcAddr ∧ t.srcLen = s.srcLen ∧ t.dstAddr = s.dstAddr ∧ t.dstCap = s.dstCap ∧ t.cmd = s.cmd ∧
    t.platform = s.platform ∧ t.pending = s.pending ∧ t.response = s.response

/-- The outcome registers are as they were. -/
abbrev SameOutcome (s t : State) : Prop := t.status = s.status ∧ t.result = s.result ∧ t.errGroup = s.errGroup

/-- Every byte of memory outside `[base, base + len)` reads as before. -/
abbrev SameOutside (s t : State) (base len : Nat) : Prop :=
  ∀ a, ¬(base ≤ a ∧ a < base + len) → Memory.read t.mem a = Memory.read s.mem a

/-- The byte `Mem(a)` of a state. -/
abbrev byteAt (s : State) (a : Nat) : Byte := Memory.read s.mem a

/-- The source length class of a command (60_exceptions.md R203). -/
def lenClass : Instr → LenClass
  | .encBulk => .bulk3
  | .encBound => .bound3
  | .decBulk => .bulk4
  | .decBound => .bound4
  | .decSize => .size4

/-- The reason a length outside the class has (60_exceptions.md R203): 3 `LEN_NOT_MULTIPLE`, 4 `LEN_OUT_OF_RANGE`. -/
def lenReason : Instr → Nat
  | .encBulk => 3
  | .encBound => 4
  | .decBulk => 3
  | .decBound => 4
  | .decSize => 3

/-- The command ended `InvalidArgument` with this reason and has written no memory (60_exceptions.md R204, R206, R207). -/
abbrev RejectedAs (s t : State) (reason : Nat) : Prop :=
  OutcomeIs t 0 reason 2 0 0 ∧ t.mem = s.mem ∧ t.draws = s.draws ∧ SameInputs s t

/-- The four conditions of `CheckDst` in their order, each with the reason it gives (60_exceptions.md R203). -/
abbrev DstRejections (s t : State) (out : Nat) : Prop :=
  (s.dstAddr.toNat = 0 → RejectedAs s t 6) ∧
  (s.dstAddr.toNat ≠ 0 → s.dstCap.toNat < out → RejectedAs s t 7) ∧
  (s.dstAddr.toNat ≠ 0 → out ≤ s.dstCap.toNat → 2 ^ 32 < s.dstAddr.toNat + out → RejectedAs s t 8) ∧
  (s.dstAddr.toNat ≠ 0 → out ≤ s.dstCap.toNat → s.dstAddr.toNat + out ≤ 2 ^ 32 →
    ¬WindowsApart s.srcAddr.toNat s.srcLen.toNat s.dstAddr.toNat out → RejectedAs s t 9)

/-- A command failed after its destination checks had passed: the window `[D, D + out)` is unspecified (its bytes are
free draws, so nothing is said of them), every other byte and every byte that does not answer is as before
(60_exceptions.md R206, R207, 20_memory.md R66). -/
abbrev SpoiledAs (s t : State) (out code group : Nat) : Prop :=
  OutcomeIs t 0 0 code 0 group ∧ SameInputs s t ∧ t.draws = s.draws + out ∧
    (∀ a, ¬(s.dstAddr.toNat ≤ a ∧ a < s.dstAddr.toNat + out ∧ Platform.accessible s.platform a = true) →
      byteAt t a = byteAt s a)

/-- `TailValid(c0, c1, c2, c3, p)`, the table of 42_decode.md R155. -/
abbrev TailValid (c0 c1 c2 c3 : Byte) (p : Nat) : Prop :=
  (p = 0 ∧ isAlpha c0 = true ∧ isAlpha c1 = true ∧ isAlpha c2 = true ∧ isAlpha c3 = true) ∨
  (p = 1 ∧ isAlpha c0 = true ∧ isAlpha c1 = true ∧ isAlpha c2 = true ∧ c3 = pad) ∨
  (p = 2 ∧ isAlpha c0 = true ∧ isAlpha c1 = true ∧ c2 = pad ∧ c3 = pad)

/-- The outcome registers hold a combination the spec allows (10_state.md R37 to R42, 60_exceptions.md R204). -/
structure OutcomeLegal (s : State) : Prop where
  reserved : statusReserved s.status = 0
  code : (codeField s.status).toNat ≤ 5
  reason : (reasonField s.status).toNat ≤ 9
  reason_iff : reasonField s.status ≠ 0 ↔ codeField s.status = 2
  pads : (padsField s.status).toNat ≤ 2
  pads_ok : padsField s.status ≠ 0 → codeField s.status = 1
  result_ok : s.result ≠ 0 → codeField s.status = 1
  group_failed : s.errGroup ≠ 0 → codeField s.status = 3 ∨ codeField s.status = 5

/-- The invariant: memory in its canonical form, and legal outcome registers. -/
structure State.Inv (s : State) : Prop where
  mem : Memory.wf s.mem = true
  outcome : OutcomeLegal s

end Sys2Proof.Machine
end

