-- ==== Sys2Proof/Certificates/Slice0/Obligations.lean ====
section
/-! DEFINITION. The statements for the provers, from the numbered rules of spec/. -/

open Sys2Proof Sys2Proof.Machine

/-! ## Command words -/

/-- 30_encoding.md R94: the five words of the opcode map, and the first word on each side of them. -/
def Obligations.CommandWordsDecodeAsTabled : Prop :=
  decode 0x00000001 = .ok .encBulk ∧ decode 0x00000002 = .ok .encBound ∧ decode 0x00000003 = .ok .decBulk ∧
    decode 0x00000004 = .ok .decBound ∧ decode 0x00000005 = .ok .decSize ∧
    decode 0x00000000 = .error (.opUnassigned 0) ∧ decode 0x00000006 = .error (.opUnassigned 6) ∧
    decode 0x00000011 = .error .rsvdNotZero

/-- 30_encoding.md R91, R94: decoding an encoded command gives it back. -/
def Obligations.DecodeOfEncodeIsTheCommand : Prop :=
  ∀ i : Instr, i.wellFormed = true → decode (encode i) = .ok i

/-- 30_encoding.md R94, R97: a word selects a command exactly when it is that command's word, and the legal words are the
five of R94. -/
def Obligations.DecodeAcceptsExactlyTheEncodings : Prop :=
  (∀ (w : Word) (i : Instr), decode w = .ok i ↔ w = encode i) ∧
    ∀ w : Word, ((∃ i, decode w = .ok i) ↔ CommandWord.legal w = true) ∧
      (CommandWord.legal w = true ↔ 1 ≤ w.toNat ∧ w.toNat ≤ 5)

/-- 30_encoding.md R95: what a host write of `w` to `CMD` runs, for every 32-bit word. -/
def Obligations.HostWriteToCmdExecutesEveryWord : Prop :=
  ∀ (w : Word) (s : State),
    hostWrite (.window 0x14) 32 w s =
      if w.toNat = 1 then exec .encBulk { s with cmd := w, response := .done }
      else if w.toNat = 2 then exec .encBound { s with cmd := w, response := .done }
      else if w.toNat = 3 then exec .decBulk { s with cmd := w, response := .done }
      else if w.toNat = 4 then exec .decBound { s with cmd := w, response := .done }
      else if w.toNat = 5 then exec .decSize { s with cmd := w, response := .done }
      else .next { s with cmd := w, response := .done, status := 4, result := 0, errGroup := 0 }

/-! ## The register window -/

/-- 10_state.md R36, 30_encoding.md R95, 70_reset_and_hazards.md R235: a 32-bit host write of a legal word at offset 0x14
stores the word and runs its command to its end, on the operand registers as they stand. -/
def Obligations.StepRunsTheDecodedCommand : Prop :=
  ∀ (s : State) (addr : HostAddr) (w : Word) (rest : List Event) (i : Instr),
    s.pending = .hostWrite addr 32 w :: rest → HostAddr.offset? s.platform addr = some 0x14 → decode w = .ok i →
      step s = exec i { s with pending := rest, cmd := w, response := .done }

/-- 30_encoding.md R96: an illegal word reads no operand, changes no memory, stays readable in `CMD`, and ends
`ILLEGAL_COMMAND`. -/
def Obligations.StepOnIllegalWord : Prop :=
  ∀ (s : State) (addr : HostAddr) (w : Word) (rest : List Event),
    s.pending = .hostWrite addr 32 w :: rest → HostAddr.offset? s.platform addr = some 0x14 →
      w.toNat / 16 ≠ 0 ∨ w.toNat % 16 = 0 ∨ 6 ≤ w.toNat % 16 →
      step s = .next { s with pending := rest, cmd := w, response := .done, status := 4, result := 0, errGroup := 0 }

/-- 10_state.md R24, 30_encoding.md R98: an access at the host address `B64_BASE + offset` is the access at that offset of
the window, wherever the window sits. -/
def Obligations.WindowOffsetsAreRelativeToBase : Prop :=
  ∀ (s : State) (o width : Nat) (v : Word), o < 64 →
    hostWrite (.absolute (s.platform.b64Base + o)) width v s = hostWrite (.window o) width v s ∧
      hostRead (.absolute (s.platform.b64Base + o)) width s = hostRead (.window o) width s

/-- 10_state.md R30: a host read changes nothing but the bus's answer, and for each of the eight stored registers the answer
is the register. -/
def Obligations.HostReadHasNoSideEffect : Prop :=
  ∀ (s : State) (addr : HostAddr) (o : Nat) (rest : List Event),
    s.pending = .hostRead addr 32 :: rest → HostAddr.offset? s.platform addr = some o → o % 4 = 0 →
      ∃ v, step s = .next { s with pending := rest, response := .data v } ∧
        (o = 0x04 → v = s.srcAddr) ∧ (o = 0x08 → v = s.srcLen) ∧ (o = 0x0C → v = s.dstAddr) ∧
        (o = 0x10 → v = s.dstCap) ∧ (o = 0x14 → v = s.cmd) ∧ (o = 0x18 → v = s.status) ∧
        (o = 0x1C → v = s.result) ∧ (o = 0x20 → v = s.errGroup)

/-- 10_state.md R31: `ID` reads 0x42363401 in every state, `MAGIC` 0x423634 above `VERSION` 0x01, and takes no
write. That the bus answers such a write `done` is the model's choice (log 5). -/
def Obligations.IdReadsItsConstant : Prop :=
  (∀ (s : State) (rest : List Event), s.pending = .hostRead (.window 0x00) 32 :: rest →
    step s = .next { s with pending := rest, response := .data 0x42363401 }) ∧
  (∀ (s : State) (v : Word) (rest : List Event), s.pending = .hostWrite (.window 0x00) 32 v :: rest →
    step s = .next { s with pending := rest, response := .done }) ∧
  (0x42363401 : Word).extractLsb' 8 24 = 0x423634 ∧ (0x42363401 : Word).extractLsb' 0 8 = 0x01

/-- 10_state.md R26: the reserved offsets read 0 and ignore writes. That the bus answers such a write `done` is the model's
choice (log 5). -/
def Obligations.ReservedOffsetsReadZeroAndIgnoreWrites : Prop :=
  ∀ (s : State) (o : Nat) (v : Word), o = 0x24 ∨ o = 0x28 ∨ o = 0x2C ∨ o = 0x30 ∨ o = 0x34 ∨ o = 0x38 ∨ o = 0x3C →
    hostRead (.window o) 32 s = { s with response := .data 0x00000000 } ∧
      hostWrite (.window o) 32 v s = .next { s with response := .done }

/-- 10_state.md R27: a write to a read-only register has no effect and starts no command. That the bus answers it `done` is
the model's choice (log 5). -/
def Obligations.ReadOnlyRegistersIgnoreWrites : Prop :=
  ∀ (s : State) (o : Nat) (v : Word), o = 0x00 ∨ o = 0x18 ∨ o = 0x1C ∨ o = 0x20 →
    hostWrite (.window o) 32 v s = .next { s with response := .done }

/-- 10_state.md R25: an access of another width, or at an offset that is not a multiple of 4, has no effect, starts no
command, and gets the error response. -/
def Obligations.BadAccessHasNoEffect : Prop :=
  ∀ (s : State) (addr : HostAddr) (o width : Nat) (v : Word) (rest : List Event),
    HostAddr.offset? s.platform addr = some o → width ≠ 32 ∨ o % 4 ≠ 0 →
      (s.pending = .hostRead addr width :: rest → step s = .next { s with pending := rest, response := .error }) ∧
      (s.pending = .hostWrite addr width v :: rest → step s = .next { s with pending := rest, response := .error })

/-- 10_state.md R28: a write to an operand register stores all 32 bits and changes no other register and no memory.
The answer `done` is a field of the model's own (log 5). -/
def Obligations.OperandWritesStoreEveryValue : Prop :=
  ∀ (s : State) (v : Word),
    hostWrite (.window 0x04) 32 v s = .next { s with srcAddr := v, response := .done } ∧
    hostWrite (.window 0x08) 32 v s = .next { s with srcLen := v, response := .done } ∧
    hostWrite (.window 0x0C) 32 v s = .next { s with dstAddr := v, response := .done } ∧
    hostWrite (.window 0x10) 32 v s = .next { s with dstCap := v, response := .done }

/-! ## Reset and the other events -/

/-- 70_reset_and_hazards.md R230: the registers of the reset state. -/
def Obligations.ResetStateHoldsResetValues : Prop :=
  ∀ r : Reg, readReg r State.reset = if r = .id then 0x42363401 else 0x00000000

/-- 70_reset_and_hazards.md R230: a reset event sets every register to its reset value and does nothing else, from any
state. -/
def Obligations.ResetEventSetsEveryRegister : Prop :=
  ∀ (s : State) (rest : List Event), s.pending = .reset :: rest →
    ∃ t, step s = .next t ∧ (∀ r : Reg, readReg r t = if r = .id then 0x42363401 else 0x00000000) ∧
      t.mem = s.mem ∧ t.platform = s.platform ∧ t.pending = rest ∧ t.draws = s.draws

/-- 70_reset_and_hazards.md R232: a reset during a command sets every register to its reset value; of memory it changes at
most the accessible bytes of that command's destination window. That the window exists only once the destination checks
have passed is the model's reading (log 7). -/
def Obligations.ResetDuringCommandSpoilsOnlyItsWindow : Prop :=
  ∀ (s : State) (w : Word) (rest : List Event), s.pending = .resetDuringCommand w :: rest →
    ∃ t, step s = .next t ∧ (∀ r : Reg, readReg r t = if r = .id then 0x42363401 else 0x00000000) ∧
      t.platform = s.platform ∧ t.pending = rest ∧
      ∀ a, byteAt t a ≠ byteAt s a →
        ∃ i out, decode w = .ok i ∧ windowLength i s = some out ∧ s.dstAddr.toNat ≤ a ∧
          a < s.dstAddr.toNat + out ∧ Platform.accessible s.platform a = true

/-- 20_memory.md R60, R69: another agent's write of a byte changes that byte and nothing else of the unit or the memory.
Where the register window shares the data memory's addresses, the byte written is not one of the window (log 8). -/
def Obligations.OtherAgentsWriteOneByte : Prop :=
  ∀ (s : State) (a : Word) (v : Byte) (rest : List Event), s.pending = .memWrite a v :: rest →
    Platform.inWindow s.platform a.toNat = false →
      ∃ t, step s = .next t ∧ (∀ b, byteAt t b = if b = a.toNat then v else byteAt s b) ∧
        (∀ r : Reg, readReg r t = readReg r s) ∧ t.platform = s.platform ∧ t.pending = rest ∧ t.draws = s.draws

/-- 20_memory.md R60, R69: another agent's read of a byte answers that byte and changes nothing. -/
def Obligations.OtherAgentsReadWithoutEffect : Prop :=
  ∀ (s : State) (a : Word) (rest : List Event), s.pending = .memRead a :: rest →
    Platform.inWindow s.platform a.toNat = false →
      step s = .next { s with pending := rest, response := .memByte (byteAt s a.toNat) }

/-- 10_state.md R25, R44: where the register window shares the data memory's addresses, another agent's byte access to it has
no effect, starts no command, and gets the error response. That such an access counts as one of another width to the window
is the model's reading (log 8). -/
def Obligations.OtherAgentsByteAccessToTheWindowHasNoEffect : Prop :=
  ∀ (s : State) (a : Word) (v : Byte) (rest : List Event), Platform.inWindow s.platform a.toNat = true →
    (s.pending = .memWrite a v :: rest → step s = .next { s with pending := rest, response := .error }) ∧
    (s.pending = .memRead a :: rest → step s = .next { s with pending := rest, response := .error })

/-- 20_memory.md R69, 70_reset_and_hazards.md R233: with no event the unit is idle and nothing changes. That events come
from a list is the model's (log 1). -/
def Obligations.IdleUnitChangesNothing : Prop :=
  ∀ s : State, s.pending = [] → step s = .next s

/-- 10_state.md R44, 20_memory.md R60: no address outside the `2^32` answers, and none of the register window where the
platform puts it in the data memory's address map. -/
def Obligations.WindowAndOutsideNeverAnswer : Prop :=
  ∀ (p : Platform) (a : Nat), 2 ^ 32 ≤ a ∨ (p.windowInDataMap = true ∧ p.b64Base ≤ a ∧ a < p.b64Base + 64) →
    Platform.accessible p a = false

/-! ## The alphabet and the group transforms -/

/-- 40_alphabet.md R110: the table, range by range. -/
def Obligations.TableFollowsItsRanges : Prop :=
  ∀ k : Sextet, (T k).toNat =
    if k.toNat ≤ 25 then 0x41 + k.toNat
    else if k.toNat ≤ 51 then 0x61 + (k.toNat - 26)
    else if k.toNat ≤ 61 then 0x30 + (k.toNat - 52)
    else if k.toNat = 62 then 0x2B else 0x2F

/-- 40_alphabet.md R115: `Index` is the exact inverse of `T`; 64 bytes have a sextet, one gives `PADDING`, 191 are
invalid. -/
def Obligations.IndexIsTheInverseOfTheTable : Prop :=
  (∀ k : Sextet, index (T k) = .sextet k) ∧ (∀ (c : Byte) (k : Sextet), index c = .sextet k → T k = c) ∧
    ((List.range 256).filter fun n => isAlpha (BitVec.ofNat 8 n)).length = 64 ∧
    (∀ c : Byte, index c = .padding ↔ c = 0x3D) ∧
    ((List.range 256).filter fun n => decide (index (BitVec.ofNat 8 n) = .invalid)).length = 191

/-- 41_encode.md R130: `Enc3` by its formulas on naturals, each sextet below 64 without truncation, and as the cut of the
24-bit group into four. -/
def Obligations.Enc3FollowsFormulasAndBitCut : Prop :=
  (∀ b0 b1 b2 : Byte,
    b0.toNat >>> 2 < 64 ∧ ((b0.toNat &&& 0x03) <<< 4 ||| b1.toNat >>> 4) < 64 ∧
    ((b1.toNat &&& 0x0F) <<< 2 ||| b2.toNat >>> 6) < 64 ∧ (b2.toNat &&& 0x3F) < 64 ∧
    enc3 b0 b1 b2 =
      [T (BitVec.ofNat 6 (b0.toNat >>> 2)),
        T (BitVec.ofNat 6 ((b0.toNat &&& 0x03) <<< 4 ||| b1.toNat >>> 4)),
        T (BitVec.ofNat 6 ((b1.toNat &&& 0x0F) <<< 2 ||| b2.toNat >>> 6)),
        T (BitVec.ofNat 6 (b2.toNat &&& 0x3F))] ∧
    enc3 b0 b1 b2 =
      [T ((b0 ++ b1 ++ b2).extractLsb' 18 6), T ((b0 ++ b1 ++ b2).extractLsb' 12 6),
        T ((b0 ++ b1 ++ b2).extractLsb' 6 6), T ((b0 ++ b1 ++ b2).extractLsb' 0 6)]) ∧
  enc3 0x4D 0x61 0x6E = [T 19, T 22, T 5, T 46]

/-- 42_decode.md R150: `Dec4` by its formulas on naturals, each byte below 256 without truncation, and as the cut of the
24-bit group into three. -/
def Obligations.Dec4FollowsFormulasAndBitCut : Prop :=
  ∀ i0 i1 i2 i3 : Sextet,
    (i0.toNat <<< 2 ||| i1.toNat >>> 4) < 256 ∧ ((i1.toNat &&& 0x0F) <<< 4 ||| i2.toNat >>> 2) < 256 ∧
    ((i2.toNat &&& 0x03) <<< 6 ||| i3.toNat) < 256 ∧
    dec4 i0 i1 i2 i3 =
      [BitVec.ofNat 8 (i0.toNat <<< 2 ||| i1.toNat >>> 4),
        BitVec.ofNat 8 ((i1.toNat &&& 0x0F) <<< 4 ||| i2.toNat >>> 2),
        BitVec.ofNat 8 ((i2.toNat &&& 0x03) <<< 6 ||| i3.toNat)] ∧
    dec4 i0 i1 i2 i3 =
      [(i0 ++ i1 ++ i2 ++ i3).extractLsb' 16 8, (i0 ++ i1 ++ i2 ++ i3).extractLsb' 8 8,
        (i0 ++ i1 ++ i2 ++ i3).extractLsb' 0 8]

/-- 42_decode.md R151: `Dec4` and `Enc3` undo each other, and both keep the 24-bit group. -/
def Obligations.Dec4AndEnc3AreInverse : Prop :=
  (∀ (b0 b1 b2 : Byte) (s0 s1 s2 s3 : Sextet), enc3 b0 b1 b2 = [T s0, T s1, T s2, T s3] →
    dec4 s0 s1 s2 s3 = [b0, b1, b2] ∧ s0 ++ s1 ++ s2 ++ s3 = b0 ++ b1 ++ b2) ∧
  (∀ i0 i1 i2 i3 : Sextet, ∃ b0 b1 b2, dec4 i0 i1 i2 i3 = [b0, b1, b2] ∧
    enc3 b0 b1 b2 = [T i0, T i1, T i2, T i3] ∧ b0 ++ b1 ++ b2 = i0 ++ i1 ++ i2 ++ i3)

/-! ## The argument checks -/

/-- 60_exceptions.md R203: `CheckSrc`, for every command, each condition with its reason and in its order. -/
def Obligations.SourceChecksRejectInOrder : Prop :=
  ∀ (i : Instr) (s : State), ∃ t, exec i s = .next t ∧
    (s.srcAddr.toNat = 0 → RejectedAs s t 1) ∧
    (s.srcAddr.toNat ≠ 0 → s.srcLen.toNat = 0 → RejectedAs s t 2) ∧
    (s.srcAddr.toNat ≠ 0 → s.srcLen.toNat ≠ 0 → ¬LenAccepted (lenClass i) s.srcLen.toNat →
      RejectedAs s t (lenReason i)) ∧
    (s.srcAddr.toNat ≠ 0 → LenAccepted (lenClass i) s.srcLen.toNat → 2 ^ 32 < s.srcAddr.toNat + s.srcLen.toNat →
      RejectedAs s t 5)

/-- 60_exceptions.md R202, R203: `CheckDst` of the three commands that check the destination before any access. -/
def Obligations.DestinationChecksRejectInOrder : Prop :=
  ∀ s : State,
    (SrcUsable (operands s) .bulk3 → ∃ t, exec .encBulk s = .next t ∧ DstRejections s t (4 * (s.srcLen.toNat / 3))) ∧
    (SrcUsable (operands s) .bound3 → ∃ t, exec .encBound s = .next t ∧ DstRejections s t 4) ∧
    (SrcUsable (operands s) .bulk4 → ∃ t, exec .decBulk s = .next t ∧ DstRejections s t (3 * (s.srcLen.toNat / 4)))

/-- 42_decode.md R154, 60_exceptions.md R202: `DEC_BOUND` reads its four characters first, and its destination checks are
of `3 - p` bytes. -/
def Obligations.DecBoundChecksDestinationAfterReading : Prop :=
  ∀ s : State, SrcUsable (operands s) .bound4 →
    (¬Answers s.platform s.srcAddr.toNat 4 → ∃ t, exec .decBound s = .next t ∧ OutcomeIs t 0 0 5 0 0 ∧
      t.mem = s.mem ∧ t.draws = s.draws ∧ SameInputs s t) ∧
    (Answers s.platform s.srcAddr.toNat 4 → ∃ t, exec .decBound s = .next t ∧
      DstRejections s t (3 - padCount (byteAt s (s.srcAddr.toNat + 2)) (byteAt s (s.srcAddr.toNat + 3))))

/-! ## The encode commands -/

/-- 41_encode.md R131: `ENC_BULK` completes. Its next state has `OK`, `RESULT` = 4q, the characters of every group, and
nothing else changed. -/
def Obligations.EncBulkCompletes : Prop :=
  ∀ s : State, SrcUsable (operands s) .bulk3 → DstUsable (operands s) (4 * (s.srcLen.toNat / 3)) →
    Answers s.platform s.srcAddr.toNat s.srcLen.toNat →
    Answers s.platform s.dstAddr.toNat (4 * (s.srcLen.toNat / 3)) →
    ∃ t, exec .encBulk s = .next t ∧ OutcomeIs t 0 0 1 (4 * (s.srcLen.toNat / 3)) 0 ∧
      (∀ g k, g < s.srcLen.toNat / 3 → k < 4 →
        byteAt t (s.dstAddr.toNat + 4 * g + k) =
          (enc3 (byteAt s (s.srcAddr.toNat + 3 * g)) (byteAt s (s.srcAddr.toNat + 3 * g + 1))
            (byteAt s (s.srcAddr.toNat + 3 * g + 2))).getD k 0) ∧
      SameOutside s t s.dstAddr.toNat (4 * (s.srcLen.toNat / 3)) ∧ SameInputs s t ∧ t.draws = s.draws

/-- 41_encode.md R132: after `OK`, group `g` of the output is `Enc3` of bytes `3g`, `3g+1`, `3g+2` of the input, all
alphabet characters, none of them `PAD`. -/
def Obligations.EncBulkOutputLaw : Prop :=
  ∀ s t : State, exec .encBulk s = .next t → codeField t.status = 1 →
    ∀ g k, g < s.srcLen.toNat / 3 → k < 4 →
      byteAt t (s.dstAddr.toNat + 4 * g + k) =
        (enc3 (byteAt s (s.srcAddr.toNat + 3 * g)) (byteAt s (s.srcAddr.toNat + 3 * g + 1))
          (byteAt s (s.srcAddr.toNat + 3 * g + 2))).getD k 0 ∧
      isAlpha (byteAt t (s.dstAddr.toNat + 4 * g + k)) = true ∧ byteAt t (s.dstAddr.toNat + 4 * g + k) ≠ pad

/-- 41_encode.md R131, 60_exceptions.md R207, R208: `ENC_BULK` ends `BUS_ERROR` at the first group with a byte that does not
answer. -/
def Obligations.EncBulkBusErrorAtFirstGroup : Prop :=
  ∀ (s : State) (f : Nat), SrcUsable (operands s) .bulk3 → DstUsable (operands s) (4 * (s.srcLen.toNat / 3)) →
    f < s.srcLen.toNat / 3 →
    (∀ g, g < f → Answers s.platform (s.srcAddr.toNat + 3 * g) 3 ∧ Answers s.platform (s.dstAddr.toNat + 4 * g) 4) →
    ¬(Answers s.platform (s.srcAddr.toNat + 3 * f) 3 ∧ Answers s.platform (s.dstAddr.toNat + 4 * f) 4) →
    ∃ t, exec .encBulk s = .next t ∧ SpoiledAs s t (4 * (s.srcLen.toNat / 3)) 5 f

/-- 41_encode.md R133: `ENC_BOUND` completes on 1 or 2 bytes. The missing bytes contribute zero bits, and the last
`3 - n` characters are `PAD`. -/
def Obligations.EncBoundCompletes : Prop :=
  ∀ s : State, SrcUsable (operands s) .bound3 → DstUsable (operands s) 4 →
    Answers s.platform s.srcAddr.toNat s.srcLen.toNat → Answers s.platform s.dstAddr.toNat 4 →
    ∃ t, exec .encBound s = .next t ∧ OutcomeIs t (3 - s.srcLen.toNat) 0 1 4 0 ∧
      (∀ k, k < 4 → byteAt t (s.dstAddr.toNat + k) =
        if k ≤ s.srcLen.toNat then
          (enc3 (byteAt s s.srcAddr.toNat) (if s.srcLen.toNat = 2 then byteAt s (s.srcAddr.toNat + 1) else 0)
            0).getD k 0
        else pad) ∧
      SameOutside s t s.dstAddr.toNat 4 ∧ SameInputs s t ∧ t.draws = s.draws

/-- 41_encode.md R134: after `OK`, two (`n = 1`) or three (`n = 2`) alphabet characters stand before `3 - n` `PAD`s, and the
last alphabet character carries the last 2 or 4 bits of the input above zeros. -/
def Obligations.EncBoundOutputLaw : Prop :=
  ∀ s t : State, exec .encBound s = .next t → codeField t.status = 1 →
    (s.srcLen.toNat = 1 ∨ s.srcLen.toNat = 2) ∧
    (∀ k, k ≤ s.srcLen.toNat → isAlpha (byteAt t (s.dstAddr.toNat + k)) = true) ∧
    (∀ k, s.srcLen.toNat < k → k < 4 → byteAt t (s.dstAddr.toNat + k) = pad) ∧
    ∃ x, index (byteAt t (s.dstAddr.toNat + s.srcLen.toNat)) = .sextet x ∧
      (s.srcLen.toNat = 1 → x.toNat = (byteAt s s.srcAddr.toNat).toNat % 4 * 16) ∧
      (s.srcLen.toNat = 2 → x.toNat = (byteAt s (s.srcAddr.toNat + 1)).toNat % 16 * 4)

/-- 41_encode.md R133, 60_exceptions.md R207, R208: `ENC_BOUND` ends `BUS_ERROR` in group 0 when a byte it reads or writes
does not answer; with `n = 1` the byte at `S + 1` is not read. -/
def Obligations.EncBoundBusError : Prop :=
  ∀ s : State, SrcUsable (operands s) .bound3 → DstUsable (operands s) 4 →
    ¬(Answers s.platform s.srcAddr.toNat s.srcLen.toNat ∧ Answers s.platform s.dstAddr.toNat 4) →
    ∃ t, exec .encBound s = .next t ∧ SpoiledAs s t 4 5 0

/-! ## The decode commands -/

/-- 42_decode.md R152: `DEC_BULK` completes on a text of alphabet characters. Its next state has `OK`, `RESULT` = 3q, the
bytes of every group by `Dec4` of its four indexes, and nothing else changed. -/
def Obligations.DecBulkCompletes : Prop :=
  ∀ s : State, SrcUsable (operands s) .bulk4 → DstUsable (operands s) (3 * (s.srcLen.toNat / 4)) →
    Answers s.platform s.srcAddr.toNat s.srcLen.toNat →
    Answers s.platform s.dstAddr.toNat (3 * (s.srcLen.toNat / 4)) →
    (∀ k, k < s.srcLen.toNat → isAlpha (byteAt s (s.srcAddr.toNat + k)) = true) →
    ∃ t, exec .decBulk s = .next t ∧ OutcomeIs t 0 0 1 (3 * (s.srcLen.toNat / 4)) 0 ∧
      (∀ g, g < s.srcLen.toNat / 4 → ∃ i0 i1 i2 i3,
        index (byteAt s (s.srcAddr.toNat + 4 * g)) = .sextet i0 ∧
        index (byteAt s (s.srcAddr.toNat + 4 * g + 1)) = .sextet i1 ∧
        index (byteAt s (s.srcAddr.toNat + 4 * g + 2)) = .sextet i2 ∧
        index (byteAt s (s.srcAddr.toNat + 4 * g + 3)) = .sextet i3 ∧
        dec4 i0 i1 i2 i3 = [byteAt t (s.dstAddr.toNat + 3 * g), byteAt t (s.dstAddr.toNat + 3 * g + 1),
          byteAt t (s.dstAddr.toNat + 3 * g + 2)]) ∧
      SameOutside s t s.dstAddr.toNat (3 * (s.srcLen.toNat / 4)) ∧ SameInputs s t ∧ t.draws = s.draws

/-- 42_decode.md R152, R153, 60_exceptions.md R207, R209: `DEC_BULK` ends `MALFORMED_INPUT` at the first group that holds a
character outside the alphabet, a `PAD` included, whatever stands after it. -/
def Obligations.DecBulkMalformedAtFirstGroup : Prop :=
  ∀ (s : State) (f : Nat), SrcUsable (operands s) .bulk4 → DstUsable (operands s) (3 * (s.srcLen.toNat / 4)) →
    f < s.srcLen.toNat / 4 → Answers s.platform s.srcAddr.toNat (4 * f + 4) →
    Answers s.platform s.dstAddr.toNat (3 * f) →
    (∀ k, k < 4 * f → isAlpha (byteAt s (s.srcAddr.toNat + k)) = true) →
    (∃ k, k < 4 ∧ isAlpha (byteAt s (s.srcAddr.toNat + 4 * f + k)) = false) →
    ∃ t, exec .decBulk s = .next t ∧ SpoiledAs s t (3 * (s.srcLen.toNat / 4)) 3 f

/-- 42_decode.md R152, 60_exceptions.md R202, R207, R208: `DEC_BULK` ends `BUS_ERROR` at the first group that cannot be read,
or that is well formed and cannot be written. -/
def Obligations.DecBulkBusErrorAtFirstGroup : Prop :=
  ∀ (s : State) (f : Nat), SrcUsable (operands s) .bulk4 → DstUsable (operands s) (3 * (s.srcLen.toNat / 4)) →
    f < s.srcLen.toNat / 4 → Answers s.platform s.srcAddr.toNat (4 * f) →
    Answers s.platform s.dstAddr.toNat (3 * f) →
    (∀ k, k < 4 * f → isAlpha (byteAt s (s.srcAddr.toNat + k)) = true) →
    ¬Answers s.platform (s.srcAddr.toNat + 4 * f) 4 ∨
      ((∀ k, k < 4 → isAlpha (byteAt s (s.srcAddr.toNat + 4 * f + k)) = true) ∧
        ¬Answers s.platform (s.dstAddr.toNat + 3 * f) 3) →
    ∃ t, exec .decBulk s = .next t ∧ SpoiledAs s t (3 * (s.srcLen.toNat / 4)) 5 f

/-- 42_decode.md R154, R155, R157: `DEC_BOUND` completes on a valid final group with `p` padding characters. It writes
`3 - p` bytes, the first always, the second when `p <= 1`, the third when `p = 0`. -/
def Obligations.DecBoundCompletes : Prop :=
  ∀ (s : State) (p : Nat),
    TailValid (byteAt s s.srcAddr.toNat) (byteAt s (s.srcAddr.toNat + 1)) (byteAt s (s.srcAddr.toNat + 2))
      (byteAt s (s.srcAddr.toNat + 3)) p →
    SrcUsable (operands s) .bound4 → DstUsable (operands s) (3 - p) → Answers s.platform s.srcAddr.toNat 4 →
    Answers s.platform s.dstAddr.toNat (3 - p) →
    ∃ t, exec .decBound s = .next t ∧ OutcomeIs t p 0 1 (3 - p) 0 ∧
      (∃ i0 i1, index (byteAt s s.srcAddr.toNat) = .sextet i0 ∧
        index (byteAt s (s.srcAddr.toNat + 1)) = .sextet i1 ∧
        (byteAt t s.dstAddr.toNat).toNat = (i0.toNat <<< 2 ||| i1.toNat >>> 4) ∧
        (p ≤ 1 → ∃ i2, index (byteAt s (s.srcAddr.toNat + 2)) = .sextet i2 ∧
          (byteAt t (s.dstAddr.toNat + 1)).toNat = ((i1.toNat &&& 0x0F) <<< 4 ||| i2.toNat >>> 2) ∧
          (p = 0 → ∃ i3, index (byteAt s (s.srcAddr.toNat + 3)) = .sextet i3 ∧
            (byteAt t (s.dstAddr.toNat + 2)).toNat = ((i2.toNat &&& 0x03) <<< 6 ||| i3.toNat)))) ∧
      SameOutside s t s.dstAddr.toNat (3 - p) ∧ SameInputs s t ∧ t.draws = s.draws

/-- 42_decode.md R155, 60_exceptions.md R207, R209: every final group that the table of R155 does not list ends
`MALFORMED_INPUT` in group 0. -/
def Obligations.DecBoundMalformed : Prop :=
  ∀ (s : State) (p : Nat), p = padCount (byteAt s (s.srcAddr.toNat + 2)) (byteAt s (s.srcAddr.toNat + 3)) →
    ¬TailValid (byteAt s s.srcAddr.toNat) (byteAt s (s.srcAddr.toNat + 1)) (byteAt s (s.srcAddr.toNat + 2))
      (byteAt s (s.srcAddr.toNat + 3)) p →
    SrcUsable (operands s) .bound4 → DstUsable (operands s) (3 - p) → Answers s.platform s.srcAddr.toNat 4 →
    ∃ t, exec .decBound s = .next t ∧ SpoiledAs s t (3 - p) 3 0

/-- 42_decode.md R154, 60_exceptions.md R207, R208: a valid final group whose bytes cannot all be written ends `BUS_ERROR`
in group 0. -/
def Obligations.DecBoundWriteBusError : Prop :=
  ∀ (s : State) (p : Nat),
    TailValid (byteAt s s.srcAddr.toNat) (byteAt s (s.srcAddr.toNat + 1)) (byteAt s (s.srcAddr.toNat + 2))
      (byteAt s (s.srcAddr.toNat + 3)) p →
    SrcUsable (operands s) .bound4 → DstUsable (operands s) (3 - p) → Answers s.platform s.srcAddr.toNat 4 →
    ¬Answers s.platform s.dstAddr.toNat (3 - p) →
    ∃ t, exec .decBound s = .next t ∧ SpoiledAs s t (3 - p) 5 0

/-- 42_decode.md R156: the bits of the last index that no byte takes are not checked: two final groups that differ in them
alone give the same bytes. -/
def Obligations.DecBoundIgnoresUnusedBits : Prop :=
  (∀ (c0 : Byte) (x y : Sextet), x.toNat / 16 = y.toNat / 16 →
    tailBytes c0 (T x) pad pad = tailBytes c0 (T y) pad pad) ∧
  (∀ (c0 c1 : Byte) (x y : Sextet), x.toNat / 4 = y.toNat / 4 →
    tailBytes c0 c1 (T x) pad = tailBytes c0 c1 (T y) pad)

/-- 42_decode.md R157: on an unpadded final group that can be read, `DEC_BOUND` does what `DEC_BULK` does, whatever the
outcome. -/
def Obligations.DecBoundIsDecBulkOnUnpaddedGroup : Prop :=
  ∀ s : State, s.srcLen.toNat = 4 → Answers s.platform s.srcAddr.toNat 4 → byteAt s (s.srcAddr.toNat + 3) ≠ pad →
    exec .decBound s = exec .decBulk s

/-! ## The size command -/

/-- 43_size.md R180, R181: `DEC_SIZE` completes when its last two characters can be read, whatever the destination
registers hold; `RESULT` is the decoded size, and memory is as it was. -/
def Obligations.DecSizeCompletes : Prop :=
  ∀ (s : State) (p : Nat), SrcUsable (operands s) .size4 →
    Platform.accessible s.platform (s.srcAddr.toNat + s.srcLen.toNat - 2) = true →
    Platform.accessible s.platform (s.srcAddr.toNat + s.srcLen.toNat - 1) = true →
    p = padCount (byteAt s (s.srcAddr.toNat + s.srcLen.toNat - 2)) (byteAt s (s.srcAddr.toNat + s.srcLen.toNat - 1)) →
    ∃ t, exec .decSize s = .next t ∧ OutcomeIs t p 0 1 (3 * (s.srcLen.toNat / 4) - p) 0 ∧
      3 * (s.srcLen.toNat / 4) - p = (s.srcLen.toNat / 4 - 1) * 3 + (3 - p) ∧
      t.mem = s.mem ∧ SameInputs s t ∧ t.draws = s.draws

/-- 43_size.md R180, 60_exceptions.md R207, R208: `DEC_SIZE` ends `BUS_ERROR` in the final group when one of the two
characters cannot be read, and memory is as it was. -/
def Obligations.DecSizeBusError : Prop :=
  ∀ s : State, SrcUsable (operands s) .size4 →
    ¬(Platform.accessible s.platform (s.srcAddr.toNat + s.srcLen.toNat - 2) = true ∧
      Platform.accessible s.platform (s.srcAddr.toNat + s.srcLen.toNat - 1) = true) →
    ∃ t, exec .decSize s = .next t ∧ OutcomeIs t 0 0 5 0 (s.srcLen.toNat / 4 - 1) ∧ t.mem = s.mem ∧ SameInputs s t ∧
      t.draws = s.draws

/-- 43_size.md R183, 10_state.md R34, R35: the outcome of `DEC_SIZE` depends on the source registers, on which addresses
answer and on the last two characters, and on nothing else. -/
def Obligations.DecSizeReadsOnlyTheLastTwo : Prop :=
  ∀ s s' t t' : State, s'.srcAddr = s.srcAddr → s'.srcLen = s.srcLen → s'.platform = s.platform →
    byteAt s' (s.srcAddr.toNat + s.srcLen.toNat - 2) = byteAt s (s.srcAddr.toNat + s.srcLen.toNat - 2) →
    byteAt s' (s.srcAddr.toNat + s.srcLen.toNat - 1) = byteAt s (s.srcAddr.toNat + s.srcLen.toNat - 1) →
    exec .decSize s = .next t → exec .decSize s' = .next t' → SameOutcome t t'

/-! ## The whole machine -/

/-- 60_exceptions.md R207: the destination window of a command exists exactly once its destination checks have passed, and
its length is the output length of 30_encoding.md R93. -/
def Obligations.WindowExistsOnceChecksPass : Prop :=
  ∀ (s : State) (out : Nat),
    (windowLength .encBulk s = some out ↔
      SrcUsable (operands s) .bulk3 ∧ out = 4 * (s.srcLen.toNat / 3) ∧ DstUsable (operands s) out) ∧
    (windowLength .encBound s = some out ↔ SrcUsable (operands s) .bound3 ∧ out = 4 ∧ DstUsable (operands s) out) ∧
    (windowLength .decBulk s = some out ↔
      SrcUsable (operands s) .bulk4 ∧ out = 3 * (s.srcLen.toNat / 4) ∧ DstUsable (operands s) out) ∧
    (windowLength .decBound s = some out ↔
      SrcUsable (operands s) .bound4 ∧ Answers s.platform s.srcAddr.toNat 4 ∧
        out = 3 - padCount (byteAt s (s.srcAddr.toNat + 2)) (byteAt s (s.srcAddr.toNat + 3)) ∧
        DstUsable (operands s) out) ∧
    windowLength .decSize s = none

/-- 20_memory.md R64, R65, R66, 10_state.md R28, 60_exceptions.md R206: the frame of every command, whatever its outcome.
It changes the outcome registers, and of memory at most the accessible bytes of its destination window; the operand
registers and `CMD` stay. -/
def Obligations.CommandsChangeOnlyOutcomeAndWindow : Prop :=
  ∀ (i : Instr) (s t : State), exec i s = .next t →
    SameInputs s t ∧ (windowLength i s = none → t.mem = s.mem ∧ t.draws = s.draws) ∧
    ∀ out, windowLength i s = some out →
      ∀ a, ¬(s.dstAddr.toNat ≤ a ∧ a < s.dstAddr.toNat + out ∧ Platform.accessible s.platform a = true) →
        byteAt t a = byteAt s a

/-- 20_memory.md R65, 60_exceptions.md R207: no command changes a byte of its source window, whatever its outcome. -/
def Obligations.SourceWindowIsNeverWritten : Prop :=
  ∀ (i : Instr) (s t : State), exec i s = .next t →
    ∀ a, s.srcAddr.toNat ≤ a → a < s.srcAddr.toNat + s.srcLen.toNat → byteAt t a = byteAt s a

/-- 60_exceptions.md R207: after `INVALID_ARGUMENT` no memory has been written. -/
def Obligations.InvalidArgumentWritesNothing : Prop :=
  ∀ (i : Instr) (s t : State), exec i s = .next t → codeField t.status = 2 → t.mem = s.mem ∧ t.draws = s.draws

/-- 60_exceptions.md R209: only the two decode commands end `MALFORMED_INPUT`. -/
def Obligations.OnlyDecodersFindMalformedInput : Prop :=
  ∀ (i : Instr) (s t : State), exec i s = .next t → codeField t.status = 3 → i = .decBulk ∨ i = .decBound

/-- 60_exceptions.md R200, 70_reset_and_hazards.md R241: the unit never stops: every step answers a next state, and a step
that starts a command records one of the outcomes 1 to 5. -/
def Obligations.EveryStepAnswersNext : Prop :=
  ∀ s : State, ∃ t, step s = .next t ∧
    ∀ (addr : HostAddr) (w : Word) (rest : List Event), s.pending = .hostWrite addr 32 w :: rest →
      HostAddr.offset? s.platform addr = some 0x14 →
      t.cmd = w ∧ 1 ≤ (codeField t.status).toNat ∧ (codeField t.status).toNat ≤ 5

/-- 10_state.md R37 to R42, 20_memory.md R60: every step keeps the memory in its canonical form and the outcome registers in
a combination the spec allows. -/
def Obligations.EveryStepKeepsTheInvariant : Prop :=
  ∀ s t : State, State.Inv s → step s = .next t → State.Inv t

/-- 70_reset_and_hazards.md R230: the reset state has the invariant. -/
def Obligations.ResetStateHasTheInvariant : Prop := State.Inv State.reset

/-- 20_memory.md R67: repeating a successful command with unchanged registers and source bytes changes nothing more. The
memory is in its canonical form, which every step keeps. -/
def Obligations.RepeatingSuccessChangesNothing : Prop :=
  ∀ (i : Instr) (s t : State), Memory.wf s.mem = true → exec i s = .next t → codeField t.status = 1 →
    exec i t = .next t

/-! ## The reference sequences -/

/-- 44_host_sequences.md R192: `ENCODE` returns `OK` exactly when its operands are usable and both whole windows answer;
it has then written `L` characters: the text of every full group, the leftover group padded with `PAD`, and nothing else.
`PAD` stands at the end only, twice where `n % 3 = 1` and once where `n % 3 = 2`. -/
def Obligations.EncodeSequenceLaws : Prop :=
  ∀ (S n D C : Word) (s : State), ∃ o t, refEncode S n D C s = .next (o, t) ∧
    (o.code = 1 ↔ 1 ≤ n.toNat ∧ S.toNat ≠ 0 ∧ D.toNat ≠ 0 ∧ textLength n.toNat ≤ C.toNat ∧
      S.toNat + n.toNat ≤ 2 ^ 32 ∧ D.toNat + textLength n.toNat ≤ 2 ^ 32 ∧
      WindowsApart S.toNat n.toNat D.toNat (textLength n.toNat) ∧ Answers s.platform S.toNat n.toNat ∧
      Answers s.platform D.toNat (textLength n.toNat)) ∧
    (o.code = 1 → o.count = textLength n.toNat ∧ SameOutside s t D.toNat (textLength n.toNat) ∧
      (∀ g k, g < n.toNat / 3 → k < 4 →
        byteAt t (D.toNat + 4 * g + k) =
          (enc3 (byteAt s (S.toNat + 3 * g)) (byteAt s (S.toNat + 3 * g + 1))
            (byteAt s (S.toNat + 3 * g + 2))).getD k 0) ∧
      (n.toNat % 3 ≠ 0 → ∀ k, k < 4 →
        byteAt t (D.toNat + 4 * (n.toNat / 3) + k) =
          if k ≤ n.toNat % 3 then
            (enc3 (byteAt s (S.toNat + 3 * (n.toNat / 3)))
              (if n.toNat % 3 = 2 then byteAt s (S.toNat + 3 * (n.toNat / 3) + 1) else 0) 0).getD k 0
          else pad) ∧
      ∀ k, k < textLength n.toNat →
        (isAlpha (byteAt t (D.toNat + k)) = true ∨ byteAt t (D.toNat + k) = pad) ∧
        (byteAt t (D.toNat + k) = pad ↔
          (n.toNat % 3 = 1 ∧ textLength n.toNat ≤ k + 2) ∨ (n.toNat % 3 = 2 ∧ textLength n.toNat ≤ k + 1)))

/-- 44_host_sequences.md R194, 43_size.md R182: when `DECODE` returns `OK` its count `m` is the `RESULT` of `DEC_SIZE` on
the same text, its bulk part has written `3 * (n/4 - 1)` bytes and its last command the others of the `m`, and of memory it
has changed at most those `m` bytes at `D`. The premise that the destination window does not wrap, or is apart from the
text, is the model's (log 13). -/
def Obligations.DecodeSequenceWritesItsSize : Prop :=
  ∀ (S n D C : Word) (s t : State) (o : SeqOutcome) (m : Nat),
    m = 3 * (n.toNat / 4) - padCount (byteAt s (S.toNat + n.toNat - 2)) (byteAt s (S.toNat + n.toNat - 1)) →
    D.toNat + m ≤ 2 ^ 32 ∨ WindowsApart S.toNat n.toNat D.toNat m →
    refDecode S n D C s = .next (o, t) → o.code = 1 →
    4 ≤ n.toNat ∧ n.toNat % 4 = 0 ∧ o.count = m ∧ m = 3 * (n.toNat / 4 - 1) + t.result.toNat ∧ m ≤ C.toNat ∧
      SameOutside s t D.toNat m ∧
      ∃ u, exec .decSize { s with srcAddr := S, srcLen := n } = .next u ∧ codeField u.status = 1 ∧ u.result.toNat = m

/-- 44_host_sequences.md R194: a text that holds a byte outside `[A-Za-z0-9+/=]` never decodes to `OK`. The premise that
the destination window does not wrap, or is apart from the text, is the model's (log 13). -/
def Obligations.DecodeSequenceRejectsMalformedText : Prop :=
  ∀ (S n D C : Word) (s t : State) (o : SeqOutcome) (k m : Nat),
    m = 3 * (n.toNat / 4) - padCount (byteAt s (S.toNat + n.toNat - 2)) (byteAt s (S.toNat + n.toNat - 1)) →
    D.toNat + m ≤ 2 ^ 32 ∨ WindowsApart S.toNat n.toNat D.toNat m →
    k < n.toNat → index (byteAt s (S.toNat + k)) = .invalid → refDecode S n D C s = .next (o, t) → o.code ≠ 1

/-- 44_host_sequences.md R190, R193, with 42_decode.md R152, R154 and 43_size.md R180: by these steps there is a `DECODE`
whose destination window wraps and meets the text, and which returns `OK` on a text with an invalid byte, with a count above
its capacity and above the number of bytes its two commands wrote. The host checks no overlap there, and `DEC_BULK` writes
over the final group before it is read. So R182, two laws of R194, and R195 are not what the steps give there (log 13). -/
def Obligations.DecodeSequenceLawsNeedANonWrappingWindow : Prop :=
  ∃ (S n D C : Word) (s t : State) (o : SeqOutcome) (k : Nat),
    2 ^ 32 < D.toNat + o.count ∧ ¬WindowsApart S.toNat n.toNat D.toNat o.count ∧
      refDecode S n D C s = .next (o, t) ∧ o.code = 1 ∧ C.toNat < o.count ∧
      3 * (n.toNat / 4 - 1) + t.result.toNat < o.count ∧ k < n.toNat ∧
      index (byteAt s (S.toNat + k)) = .invalid

/-- 44_host_sequences.md R194: the round trip. What `ENCODE` wrote without error, `DECODE` turns back into the same bytes,
wherever a usable destination lies. -/
def Obligations.DecodeOfEncodeReturnsTheBytes : Prop :=
  ∀ (S n D C E F : Word) (s t : State) (o : SeqOutcome), refEncode S n D C s = .next (o, t) → o.code = 1 →
    E.toNat ≠ 0 → E.toNat + n.toNat ≤ 2 ^ 32 → n.toNat ≤ F.toNat → Answers s.platform E.toNat n.toNat →
    WindowsApart D.toNat (textLength n.toNat) E.toNat n.toNat →
    ∃ o' t', refDecode D (word (textLength n.toNat)) E F t = .next (o', t') ∧ o'.code = 1 ∧ o'.count = n.toNat ∧
      ∀ k, k < n.toNat → byteAt t' (E.toNat + k) = byteAt s (S.toNat + k)
end

