-- ==== Sys2Proof/Laws/Alphabet.lean ====
section
/-! SUPPORT. The small laws of the alphabet table and its inverse. -/

namespace Sys2Proof.Machine

theorem alphaIndex_eq_some {c : Byte} {k : Sextet} : alphaIndex c = some k ↔ index c = .sextet k := by
  unfold alphaIndex
  cases index c <;> simp

theorem isAlpha_iff {c : Byte} : isAlpha c = true ↔ ∃ k, index c = .sextet k := by
  simp only [isAlpha, Option.isSome_iff_exists, alphaIndex_eq_some]

/-- Looking up a table entry gives its index back. -/
@[simp] theorem alphaIndex_T (k : Sextet) : alphaIndex (T k) = some k := by
  revert k; decide

@[simp] theorem isAlpha_T (k : Sextet) : isAlpha (T k) = true := by simp [isAlpha]

/-- `PAD` is not an alphabet character. -/
@[simp] theorem alphaIndex_pad : alphaIndex pad = none := by decide

@[simp] theorem isAlpha_pad : isAlpha pad = false := by decide

/-- No table entry is `PAD`. -/
theorem T_ne_pad (k : Sextet) : T k ≠ pad := by
  intro h
  have := alphaIndex_T k
  rw [h, alphaIndex_pad] at this
  exact absurd this (by simp)

theorem ne_pad_of_isAlpha {c : Byte} (h : isAlpha c = true) : c ≠ pad := by
  rintro rfl
  simp at h

theorem padCount_of_ne {a b : Byte} (h : b ≠ pad) : padCount a b = 0 := by simp [padCount, h]

theorem padCount_one {a : Byte} (h : a ≠ pad) : padCount a pad = 1 := by simp [padCount, h]

theorem padCount_two : padCount pad pad = 2 := rfl

end Sys2Proof.Machine
end

