-- ==== Sys2Proof/Laws/Memory.lean ====
section
/-! SUPPORT. The laws of data memory: read after write, and the canonical form that every operation keeps. -/

namespace Sys2Proof.Machine

@[simp] theorem Memory.read_nil (a : Nat) : Memory.read [] a = Memory.unlisted := rfl

theorem Memory.read_cons (b : Nat) (v : Byte) (rest : Memory) (a : Nat) :
    Memory.read ((b, v) :: rest) a = if b = a then v else Memory.read rest a := rfl

theorem Memory.read_erase (m : Memory) (a b : Nat) :
    Memory.read (Memory.erase m a) b = if b = a then Memory.unlisted else Memory.read m b := by
  induction m with
  | nil => simp [Memory.erase]
  | cons c rest ih =>
    obtain ⟨k, v⟩ := c
    simp only [Memory.erase] at ih ⊢
    by_cases hk : k = a
    · subst hk
      by_cases hb : b = k
      · simpa [hb, List.filter_cons] using (by simpa [hb] using ih)
      · simpa [hb, List.filter_cons, Memory.read_cons, Ne.symm hb] using ih
    · simp only [List.filter_cons, hk, ne_eq, not_false_eq_true, decide_true, if_true, Memory.read_cons, ih]
      split <;> split <;> simp_all

theorem Memory.read_insert (m : Memory) (a : Nat) (v : Byte) (b : Nat) (h : ∀ c ∈ m, c.1 ≠ a) :
    Memory.read (Memory.insert m a v) b = if b = a then v else Memory.read m b := by
  induction m with
  | nil => simp [Memory.insert, Memory.read_cons, eq_comm]
  | cons c rest ih =>
    obtain ⟨k, w⟩ := c
    have hk : k ≠ a := h (k, w) (by simp)
    have ih := ih (fun c hc => h c (by simp [hc]))
    simp only [Memory.insert]
    split
    · simp only [Memory.read_cons, eq_comm]
    · simp only [Memory.read_cons, ih]
      split <;> split <;> simp_all

theorem Memory.erase_keys (m : Memory) (a : Nat) : ∀ c ∈ Memory.erase m a, c.1 ≠ a := by
  intro c hc
  simpa using (List.mem_filter.mp hc).2

/-- Read after write: the byte written at its address, every other byte as before. -/
@[simp] theorem Memory.read_write (m : Memory) (a : Nat) (v : Byte) (b : Nat) :
    Memory.read (Memory.write m a v) b = if b = a then v else Memory.read m b := by
  unfold Memory.write
  split
  · next h => simp [Memory.read_erase, h]
  · rw [Memory.read_insert _ _ _ _ (Memory.erase_keys m a), Memory.read_erase]
    split <;> simp_all

theorem Memory.wfFrom_cons (lo a : Nat) (v : Byte) (rest : Memory) :
    Memory.wfFrom lo ((a, v) :: rest) = true ↔
      lo ≤ a ∧ a < 2 ^ 32 ∧ v ≠ Memory.unlisted ∧ Memory.wfFrom (a + 1) rest = true := by
  simp [Memory.wfFrom, and_assoc]

theorem Memory.wfFrom_mono {lo lo' : Nat} (h : lo' ≤ lo) {m : Memory} (hm : Memory.wfFrom lo m = true) :
    Memory.wfFrom lo' m = true := by
  cases m with
  | nil => rfl
  | cons c rest =>
    obtain ⟨a, v⟩ := c
    rw [Memory.wfFrom_cons] at hm ⊢
    exact ⟨by omega, hm.2⟩

theorem Memory.wfFrom_erase {lo : Nat} {m : Memory} (a : Nat) (hm : Memory.wfFrom lo m = true) :
    Memory.wfFrom lo (Memory.erase m a) = true := by
  induction m generalizing lo with
  | nil => rfl
  | cons c rest ih =>
    obtain ⟨k, v⟩ := c
    rw [Memory.wfFrom_cons] at hm
    obtain ⟨hlo, hk, hv, hr⟩ := hm
    by_cases h : k = a
    · simpa [Memory.erase, List.filter_cons, h] using
        Memory.wfFrom_mono (by omega) (ih (Memory.wfFrom_mono (Nat.le_refl _) hr))
    · simp only [Memory.erase, List.filter_cons, h, ne_eq, not_false_eq_true, decide_true, if_true]
      rw [Memory.wfFrom_cons]
      exact ⟨hlo, hk, hv, ih hr⟩

theorem Memory.wfFrom_insert {lo : Nat} {m : Memory} {a : Nat} {v : Byte} (hm : Memory.wfFrom lo m = true)
    (hk : ∀ c ∈ m, c.1 ≠ a) (hlo : lo ≤ a) (ha : a < 2 ^ 32) (hv : v ≠ Memory.unlisted) :
    Memory.wfFrom lo (Memory.insert m a v) = true := by
  induction m generalizing lo with
  | nil => simp only [Memory.insert, Memory.wfFrom_cons]; exact ⟨hlo, ha, hv, rfl⟩
  | cons c rest ih =>
    obtain ⟨k, w⟩ := c
    rw [Memory.wfFrom_cons] at hm
    obtain ⟨hlk, hk2, hw, hr⟩ := hm
    have hne : k ≠ a := hk (k, w) (by simp)
    simp only [Memory.insert]
    split
    · rw [Memory.wfFrom_cons, Memory.wfFrom_cons]
      exact ⟨hlo, ha, hv, by omega, hk2, hw, hr⟩
    · rw [Memory.wfFrom_cons]
      exact ⟨hlk, hk2, hw, ih hr (fun c hc => hk c (by simp [hc])) (by omega)⟩

/-- A write keeps the canonical form. -/
theorem Memory.wf_write {m : Memory} {a : Nat} {v : Byte} (hm : Memory.wf m = true) (ha : a < 2 ^ 32) :
    Memory.wf (Memory.write m a v) = true := by
  unfold Memory.write
  split
  · exact Memory.wfFrom_erase a hm
  · next hv => exact Memory.wfFrom_insert (Memory.wfFrom_erase a hm) (Memory.erase_keys m a) (by omega) ha hv

theorem Memory.read_below {lo a : Nat} {m : Memory} (hm : Memory.wfFrom lo m = true) (ha : a < lo) :
    Memory.read m a = Memory.unlisted := by
  induction m generalizing lo with
  | nil => rfl
  | cons c rest ih =>
    obtain ⟨k, v⟩ := c
    rw [Memory.wfFrom_cons] at hm
    rw [Memory.read_cons, if_neg (by omega)]
    exact ih hm.2.2.2 (by omega)

/-- Two memories in canonical form that read the same everywhere are the same data. -/
theorem Memory.ext_of_wfFrom {lo : Nat} {m m' : Memory} (hm : Memory.wfFrom lo m = true)
    (hm' : Memory.wfFrom lo m' = true) (h : ∀ a, Memory.read m a = Memory.read m' a) : m = m' := by
  induction m generalizing lo m' with
  | nil =>
    cases m' with
    | nil => rfl
    | cons c rest =>
      obtain ⟨k, v⟩ := c
      rw [Memory.wfFrom_cons] at hm'
      have := h k
      simp [Memory.read_cons] at this
      exact absurd this.symm hm'.2.2.1
  | cons c rest ih =>
    obtain ⟨k, v⟩ := c
    rw [Memory.wfFrom_cons] at hm
    obtain ⟨hlk, hk, hv, hr⟩ := hm
    cases m' with
    | nil =>
      have := h k
      simp [Memory.read_cons] at this
      exact absurd this hv
    | cons c' rest' =>
      obtain ⟨k', v'⟩ := c'
      rw [Memory.wfFrom_cons] at hm'
      obtain ⟨hlk', hk', hv', hr'⟩ := hm'
      have hkk : k = k' := by
        rcases Nat.lt_trichotomy k k' with hlt | heq | hgt
        · have := h k
          rw [Memory.read_cons, if_pos rfl, Memory.read_cons, if_neg (by omega),
            Memory.read_below hr' (by omega)] at this
          exact absurd this hv
        · exact heq
        · have := h k'
          rw [Memory.read_cons, if_neg (by omega), Memory.read_cons, if_pos rfl,
            Memory.read_below hr (by omega)] at this
          exact absurd this.symm hv'
      subst hkk
      have hvv : v = v' := by simpa [Memory.read_cons] using h k
      subst hvv
      rw [ih hr hr']
      intro a
      have := h a
      simp only [Memory.read_cons] at this
      split at this
      · next hka => subst hka; rw [Memory.read_below hr (by omega), Memory.read_below hr' (by omega)]
      · exact this

theorem Memory.ext {m m' : Memory} (hm : Memory.wf m = true) (hm' : Memory.wf m' = true)
    (h : ∀ a, Memory.read m a = Memory.read m' a) : m = m' := Memory.ext_of_wfFrom hm hm' h

theorem Platform.accessible_lt {p : Platform} {a : Nat} (h : Platform.accessible p a = true) : a < 2 ^ 32 := by
  simp only [Platform.accessible, Bool.and_eq_true, decide_eq_true_eq] at h
  exact h.1.1

/-- What `memRead` answers: the byte exactly when the address is accessible. -/
theorem memRead_eq_some {p : Platform} {m : Memory} {a : Nat} {v : Byte} :
    memRead p m a = some v ↔ Platform.accessible p a = true ∧ v = Memory.read m a := by
  unfold memRead
  split
  · next h => simp only [Option.some.injEq, h, true_and]; exact eq_comm
  · next h => simp [h]

theorem memRead_eq_none {p : Platform} {m : Memory} {a : Nat} :
    memRead p m a = none ↔ ¬Platform.accessible p a = true := by
  unfold memRead
  split <;> simp_all

theorem memRead_of_accessible {p : Platform} {m : Memory} {a : Nat} (h : Platform.accessible p a = true) :
    memRead p m a = some (Memory.read m a) := by simp [memRead, h]

/-- The bytes written in ascending order from `a`, accesses apart. -/
def Memory.writeSeq : Memory → Nat → List Byte → Memory
  | m, _, [] => m
  | m, a, v :: rest => Memory.writeSeq (Memory.write m a v) (a + 1) rest

theorem Memory.read_writeSeq (bytes : List Byte) (m : Memory) (a b : Nat) :
    Memory.read (Memory.writeSeq m a bytes) b =
      if a ≤ b ∧ b < a + bytes.length then bytes.getD (b - a) 0 else Memory.read m b := by
  induction bytes generalizing m a with
  | nil => rw [if_neg (by simp)]; rfl
  | cons v rest ih =>
    rw [Memory.writeSeq, ih, Memory.read_write]
    by_cases hb : b = a
    · subst hb; simp
    · by_cases h : a + 1 ≤ b ∧ b < a + 1 + rest.length
      · rw [if_pos h, if_pos (by simp; omega), show b - a = (b - (a + 1)) + 1 by omega, List.getD_cons_succ]
      · rw [if_neg h, if_neg hb, if_neg (by simp; omega)]

theorem Memory.wf_writeSeq (bytes : List Byte) {m : Memory} {a : Nat} (hm : Memory.wf m = true)
    (ha : a + bytes.length ≤ 2 ^ 32) : Memory.wf (Memory.writeSeq m a bytes) = true := by
  induction bytes generalizing m a with
  | nil => exact hm
  | cons v rest ih =>
    simp only [List.length_cons] at ha
    exact ih (Memory.wf_write hm (by omega)) (by omega)

/-- What `memWriteSeq` can do: write all the bytes when every address answers, and fail when one does not. -/
theorem memWriteSeq_eq (p : Platform) (bytes : List Byte) (m : Memory) (a : Nat) :
    memWriteSeq p m a bytes =
      if ∀ k, k < bytes.length → Platform.accessible p (a + k) = true then some (Memory.writeSeq m a bytes)
      else none := by
  induction bytes generalizing m a with
  | nil => simp [memWriteSeq, Memory.writeSeq]
  | cons v rest ih =>
    by_cases h0 : Platform.accessible p a = true
    · simp only [memWriteSeq, memWrite, h0, if_true, ih, Memory.writeSeq]
      congr 1
      refine propext ⟨fun h k hk => ?_, fun h k hk => ?_⟩
      · cases k with
        | zero => exact h0
        | succ k => rw [show a + (k + 1) = a + 1 + k by omega]; exact h k (by simpa using hk)
      · rw [show a + 1 + k = a + (k + 1) by omega]; exact h (k + 1) (by simpa using hk)
    · rw [if_neg (fun h => h0 (h 0 (by simp)))]
      simp [memWriteSeq, memWrite, h0]

theorem memWriteSeq_eq_some {p : Platform} {bytes : List Byte} {m m' : Memory} {a : Nat} :
    memWriteSeq p m a bytes = some m' ↔
      (∀ k, k < bytes.length → Platform.accessible p (a + k) = true) ∧ m' = Memory.writeSeq m a bytes := by
  rw [memWriteSeq_eq]
  split
  · next h => simp only [Option.some.injEq]; exact ⟨fun e => ⟨h, e.symm⟩, fun e => e.2.symm⟩
  · next h => simp [h]

/-- What `drawBytes` leaves: free values at the accessible bytes of the window, every other byte as before. -/
theorem read_drawBytes (p : Platform) (base k len : Nat) (m : Memory) (a : Nat) :
    Memory.read (drawBytes p base k len m) a =
      if base ≤ a ∧ a < base + len ∧ Platform.accessible p a = true then Config.freeByte (k + (a - base))
      else Memory.read m a := by
  induction len with
  | zero => rw [if_neg (by omega)]; rfl
  | succ len ih =>
    by_cases hacc : Platform.accessible p (base + len) = true
    · simp only [drawBytes, hacc, if_true, Memory.read_write, ih]
      by_cases ha : a = base + len
      · subst ha; simp [hacc]
      · rw [if_neg ha]
        congr 1
        refine propext ⟨fun h => ⟨h.1, by omega, h.2.2⟩, fun h => ⟨h.1, by omega, h.2.2⟩⟩
    · simp only [drawBytes, hacc, ih, Bool.false_eq_true, if_false]
      congr 1
      refine propext ⟨fun h => ⟨h.1, by omega, h.2.2⟩, fun h => ⟨h.1, ?_, h.2.2⟩⟩
      by_cases ha : a = base + len
      · exact absurd (ha ▸ h.2.2) hacc
      · omega

theorem wf_drawBytes (p : Platform) (base k len : Nat) {m : Memory} (hm : Memory.wf m = true) :
    Memory.wf (drawBytes p base k len m) = true := by
  induction len with
  | zero => exact hm
  | succ len ih =>
    unfold drawBytes
    split
    · next h => exact Memory.wf_write ih (Platform.accessible_lt h)
    · exact ih

end Sys2Proof.Machine
end

