-- ==== Sys2Proof/Laws/Groups.lean ====
section
/-! SUPPORT. What a loop over groups can do, and what one pass of each command's loop does. -/

namespace Sys2Proof.Machine

/-- The state of a loop that has reached group `j` from group `g` of memory `m`: only the groups in between have changed,
`w` bytes each from `dst` on. -/
abbrev SameButGroups (dst w g j : Nat) (m m' : Memory) : Prop :=
  ∀ a, ¬(dst + w * g ≤ a ∧ a < dst + w * j) → Memory.read m' a = Memory.read m a

/-- Group `j` is written: its `w` bytes are `out`, every other byte is as before. -/
abbrev GroupWritten (dst w j : Nat) (out : Nat → Byte) (m m' : Memory) : Prop :=
  ∀ a, Memory.read m' a =
    if dst + w * j ≤ a ∧ a < dst + w * j + w then out (a - (dst + w * j)) else Memory.read m a

theorem SameButGroups.step {dst w g j : Nat} {out : Nat → Byte} {m m' m'' : Memory} (hgj : g ≤ j)
    (h : SameButGroups dst w g j m m') (hw : GroupWritten dst w j out m' m'') :
    SameButGroups dst w g (j + 1) m m'' := by
  intro a ha
  have h1 : w * g ≤ w * j := Nat.mul_le_mul_left w hgj
  have h2 : w * (j + 1) = w * j + w := Nat.mul_succ w j
  rw [hw a, if_neg (by omega), h a (by omega)]

/-- A loop all of whose groups succeed: every group is written, and nothing else changes. -/
theorem forGroups_ok {body : Nat → Memory → Except Failure Memory} {dst w : Nat} {out : Nat → Nat → Byte}
    {m : Memory} {count g : Nat}
    (hbody : ∀ j m', g ≤ j → j < g + count → SameButGroups dst w g j m m' →
      ∃ m'', body j m' = .ok m'' ∧ GroupWritten dst w j (out j) m' m'') :
    ∃ m', forGroups body count g m = .ok m' ∧ SameButGroups dst w g (g + count) m m' ∧
      ∀ j k, g ≤ j → j < g + count → k < w → Memory.read m' (dst + w * j + k) = out j k := by
  induction count generalizing g m with
  | zero => exact ⟨m, rfl, fun _ _ => rfl, fun j k h1 h2 => by omega⟩
  | succ count ih =>
    obtain ⟨m1, h1, hw1⟩ := hbody g m (Nat.le_refl g) (by omega) (fun _ _ => rfl)
    have hs1 : SameButGroups dst w g (g + 1) m m1 := SameButGroups.step (Nat.le_refl g) (fun _ _ => rfl) hw1
    have hbase : w * (g + 1) = w * g + w := Nat.mul_succ w g
    obtain ⟨m', h2, hsame, hout⟩ := ih (g := g + 1) (m := m1) (by
      intro j m' hj1 hj2 hsame
      have hmono : w * (g + 1) ≤ w * j := Nat.mul_le_mul_left w hj1
      refine hbody j m' (by omega) (by omega) (fun a ha => ?_)
      rw [hsame a (by omega), hs1 a (by omega)])
    have hmono : w * (g + 1) ≤ w * (g + 1 + count) := Nat.mul_le_mul_left w (by omega)
    have hend : g + 1 + count = g + (count + 1) := by omega
    refine ⟨m', by simp only [forGroups, h1, h2], fun a ha => ?_, fun j k hj1 hj2 hk => ?_⟩
    · rw [← hend] at ha
      rw [hsame a (by omega), hs1 a (by omega)]
    · by_cases hj : j = g
      · subst hj
        rw [hsame _ (by omega), hw1, if_pos (by omega)]
        congr 1; omega
      · exact hout j k (by omega) (by omega) hk

/-- A loop whose groups up to `f` succeed and whose group `f` fails ends with that failure. -/
theorem forGroups_error {body : Nat → Memory → Except Failure Memory} {dst w : Nat} {out : Nat → Nat → Byte}
    {m : Memory} {count g f : Nat} {e : Failure} (hgf : g ≤ f) (hf : f < g + count)
    (hbody : ∀ j m', g ≤ j → j < f → SameButGroups dst w g j m m' →
      ∃ m'', body j m' = .ok m'' ∧ GroupWritten dst w j (out j) m' m'')
    (hfail : ∀ m', SameButGroups dst w g f m m' → body f m' = .error e) :
    forGroups body count g m = .error e := by
  induction count generalizing g m with
  | zero => omega
  | succ count ih =>
    by_cases hfg : f = g
    · subst hfg
      simp only [forGroups, hfail m (fun _ _ => rfl)]
    · obtain ⟨m1, h1, hw1⟩ := hbody g m (Nat.le_refl g) (by omega) (fun _ _ => rfl)
      have hs1 : SameButGroups dst w g (g + 1) m m1 := SameButGroups.step (Nat.le_refl g) (fun _ _ => rfl) hw1
      have hbase : w * (g + 1) = w * g + w := Nat.mul_succ w g
      have hlift : ∀ j m', g + 1 ≤ j → SameButGroups dst w (g + 1) j m1 m' → SameButGroups dst w g j m m' := by
        intro j m' hj hsame a ha
        have hmono : w * (g + 1) ≤ w * j := Nat.mul_le_mul_left w hj
        rw [hsame a (by omega), hs1 a (by omega)]
      simp only [forGroups, h1]
      exact ih (by omega) (by omega) (fun j m' hj1 hj2 hs => hbody j m' (by omega) hj2 (hlift j m' hj1 hs))
        (fun m' hs => hfail m' (hlift f m' (by omega) hs))

/-- A property of memory that every group keeps holds after the loop. -/
theorem forGroups_keeps {body : Nat → Memory → Except Failure Memory} {P : Memory → Prop} {count g : Nat}
    {m m' : Memory} (hbody : ∀ j m m', g ≤ j → j < g + count → body j m = .ok m' → P m → P m')
    (h : forGroups body count g m = .ok m') (hm : P m) : P m' := by
  induction count generalizing g m with
  | zero => simp only [forGroups, Except.ok.injEq] at h; exact h ▸ hm
  | succ count ih =>
    simp only [forGroups] at h
    split at h
    · exact absurd h (by simp)
    · next m1 h1 =>
      exact ih (fun j m m' hj1 hj2 => hbody j m m' (by omega) (by omega)) h
        (hbody g m m1 (Nat.le_refl g) (by omega) h1 hm)

/-- A failure of the loop is a failure of one of its groups. -/
theorem forGroups_error_cases {body : Nat → Memory → Except Failure Memory} {count g : Nat} {m : Memory}
    {e : Failure} (h : forGroups body count g m = .error e) :
    ∃ j m', g ≤ j ∧ j < g + count ∧ body j m' = .error e := by
  induction count generalizing g m with
  | zero => simp [forGroups] at h
  | succ count ih =>
    simp only [forGroups] at h
    split at h
    · next e' h1 => exact ⟨g, m, Nat.le_refl g, by omega, by rw [h1]; exact h⟩
    · next m1 h1 =>
      obtain ⟨j, m', hj1, hj2, hj3⟩ := ih h
      exact ⟨j, m', by omega, by omega, hj3⟩

/-- Writing one group's bytes. -/
theorem groupWritten_writeSeq {dst w j : Nat} {bytes : List Byte} (hlen : bytes.length = w) (m : Memory) :
    GroupWritten dst w j (fun k => bytes.getD k 0) m (Memory.writeSeq m (dst + w * j) bytes) := by
  intro a
  rw [Memory.read_writeSeq, hlen]

theorem Answers.at_address {p : Platform} {base len a : Nat} (h : Answers p base len) (h1 : base ≤ a)
    (h2 : a < base + len) : Platform.accessible p a = true := by
  have := h (a - base) (by omega)
  rwa [show base + (a - base) = a by omega] at this

theorem answers_three {p : Platform} {a : Nat} :
    Answers p a 3 ↔ Platform.accessible p a = true ∧ Platform.accessible p (a + 1) = true ∧
      Platform.accessible p (a + 2) = true := by
  refine ⟨fun h => ⟨h 0 (by omega), h 1 (by omega), h 2 (by omega)⟩, fun h k hk => ?_⟩
  obtain rfl | rfl | rfl : k = 0 ∨ k = 1 ∨ k = 2 := by omega
  · exact h.1
  · exact h.2.1
  · exact h.2.2

theorem answers_four {p : Platform} {a : Nat} :
    Answers p a 4 ↔ Platform.accessible p a = true ∧ Platform.accessible p (a + 1) = true ∧
      Platform.accessible p (a + 2) = true ∧ Platform.accessible p (a + 3) = true := by
  refine ⟨fun h => ⟨h 0 (by omega), h 1 (by omega), h 2 (by omega), h 3 (by omega)⟩, fun h k hk => ?_⟩
  obtain rfl | rfl | rfl | rfl : k = 0 ∨ k = 1 ∨ k = 2 ∨ k = 3 := by omega
  · exact h.1
  · exact h.2.1
  · exact h.2.2.1
  · exact h.2.2.2

/-- Writing bytes all of whose addresses answer. -/
theorem memWriteSeq_of_answers {p : Platform} {m : Memory} {a : Nat} {bytes : List Byte}
    (h : Answers p a bytes.length) : memWriteSeq p m a bytes = some (Memory.writeSeq m a bytes) :=
  memWriteSeq_eq_some.mpr ⟨h, rfl⟩

/-- Writing bytes one of whose addresses does not answer. -/
theorem memWriteSeq_of_not_answers {p : Platform} {m : Memory} {a : Nat} {bytes : List Byte}
    (h : ¬Answers p a bytes.length) : memWriteSeq p m a bytes = none := by
  cases hm : memWriteSeq p m a bytes with
  | none => rfl
  | some m' => exact absurd (memWriteSeq_eq_some.mp hm).1 h

theorem enc3_length (b0 b1 b2 : Byte) : (enc3 b0 b1 b2).length = 4 := rfl

/-- The bytes of source group `g` of an encode command. -/
abbrev encBytes (src g : Nat) (m : Memory) : List Byte :=
  enc3 (Memory.read m (src + 3 * g)) (Memory.read m (src + 3 * g + 1)) (Memory.read m (src + 3 * g + 2))

/-- What one pass of the loop of `ENC_BULK` does. -/
theorem encodeGroup_eq (p : Platform) (src dst g : Nat) (m : Memory) :
    encodeGroup p src dst g m =
      if Answers p (src + 3 * g) 3 ∧ Answers p (dst + 4 * g) 4 then
        .ok (Memory.writeSeq m (dst + 4 * g) (encBytes src g m))
      else .error (.busError g) := by
  by_cases hs : Answers p (src + 3 * g) 3
  · have hs' := answers_three.mp hs
    by_cases hd : Answers p (dst + 4 * g) 4
    · rw [if_pos ⟨hs, hd⟩]
      simp only [encodeGroup, memRead, hs'.1, hs'.2.1, hs'.2.2, if_true]
      rw [memWriteSeq_of_answers (by rw [enc3_length]; exact hd)]
    · rw [if_neg (fun h => hd h.2)]
      simp only [encodeGroup, memRead, hs'.1, hs'.2.1, hs'.2.2, if_true]
      rw [memWriteSeq_of_not_answers (by rw [enc3_length]; exact hd)]
  · rw [if_neg (fun h => hs h.1)]
    unfold encodeGroup
    split
    · next b0 b1 b2 h0 h1 h2 =>
      exact absurd (answers_three.mpr ⟨(memRead_eq_some.mp h0).1, (memRead_eq_some.mp h1).1,
        (memRead_eq_some.mp h2).1⟩) hs
    · rfl

/-- The four characters that stand at `a`. -/
abbrev charsAt (m : Memory) (a : Nat) : Byte × Byte × Byte × Byte :=
  (Memory.read m a, Memory.read m (a + 1), Memory.read m (a + 2), Memory.read m (a + 3))

theorem readChars_eq (p : Platform) (m : Memory) (a : Nat) :
    readChars p m a = if Answers p a 4 then some (charsAt m a) else none := by
  by_cases h : Answers p a 4
  · have h' := answers_four.mp h
    rw [if_pos h]
    simp only [readChars, memRead, h'.1, h'.2.1, h'.2.2.1, h'.2.2.2, if_true]
  · rw [if_neg h]
    unfold readChars
    split
    · next c0 c1 c2 c3 h0 h1 h2 h3 =>
      exact absurd (answers_four.mpr ⟨(memRead_eq_some.mp h0).1, (memRead_eq_some.mp h1).1,
        (memRead_eq_some.mp h2).1, (memRead_eq_some.mp h3).1⟩) h
    · rfl

/-- The bytes of a full group are exactly those of four alphabet characters. -/
theorem fullBytes_eq_some {c0 c1 c2 c3 : Byte} {bytes : List Byte} :
    fullBytes c0 c1 c2 c3 = some bytes ↔
      ∃ i0 i1 i2 i3, alphaIndex c0 = some i0 ∧ alphaIndex c1 = some i1 ∧ alphaIndex c2 = some i2 ∧
        alphaIndex c3 = some i3 ∧ bytes = dec4 i0 i1 i2 i3 := by
  unfold fullBytes
  split
  · next i0 i1 i2 i3 h0 h1 h2 h3 => simp [h0, h1, h2, h3, eq_comm]
  · next hno =>
    constructor
    · intro h; exact absurd h (by simp)
    · rintro ⟨i0, i1, i2, i3, h0, h1, h2, h3, -⟩
      exact absurd h3 (hno i0 i1 i2 i3 h0 h1 h2)

theorem fullBytes_length {c0 c1 c2 c3 : Byte} {bytes : List Byte} (h : fullBytes c0 c1 c2 c3 = some bytes) :
    bytes.length = 3 := by
  obtain ⟨i0, i1, i2, i3, -, -, -, -, rfl⟩ := fullBytes_eq_some.mp h
  rfl

theorem fullBytes_eq_none {c0 c1 c2 c3 : Byte} :
    fullBytes c0 c1 c2 c3 = none ↔
      ¬(isAlpha c0 = true ∧ isAlpha c1 = true ∧ isAlpha c2 = true ∧ isAlpha c3 = true) := by
  simp only [isAlpha, Option.isSome_iff_exists]
  constructor
  · rintro h ⟨⟨i0, h0⟩, ⟨i1, h1⟩, ⟨i2, h2⟩, ⟨i3, h3⟩⟩
    have := fullBytes_eq_some.mpr ⟨i0, i1, i2, i3, h0, h1, h2, h3, rfl⟩
    rw [h] at this
    exact absurd this (by simp)
  · intro h
    cases hb : fullBytes c0 c1 c2 c3 with
    | none => rfl
    | some bytes =>
      obtain ⟨i0, i1, i2, i3, h0, h1, h2, h3, -⟩ := fullBytes_eq_some.mp hb
      exact absurd ⟨⟨i0, h0⟩, ⟨i1, h1⟩, ⟨i2, h2⟩, ⟨i3, h3⟩⟩ h

/-- The bytes of text group `g` of a decode command, none when it is malformed. -/
abbrev decBytes (src g : Nat) (m : Memory) : Option (List Byte) :=
  fullBytes (Memory.read m (src + 4 * g)) (Memory.read m (src + 4 * g + 1)) (Memory.read m (src + 4 * g + 2))
    (Memory.read m (src + 4 * g + 3))

/-- One pass of the loop of `DEC_BULK` on a group whose characters cannot be read. -/
theorem decodeGroup_unread {p : Platform} {src dst g : Nat} {m : Memory} (h : ¬Answers p (src + 4 * g) 4) :
    decodeGroup p src dst g m = .error (.busError g) := by
  simp only [decodeGroup, readChars_eq]
  rw [if_neg h]

/-- One pass of the loop of `DEC_BULK` on a malformed group. -/
theorem decodeGroup_malformed {p : Platform} {src dst g : Nat} {m : Memory} (h : Answers p (src + 4 * g) 4)
    (hb : decBytes src g m = none) : decodeGroup p src dst g m = .error (.malformedInput g) := by
  simp only [decodeGroup, readChars_eq]
  rw [if_pos h]
  simp only [hb]

/-- One pass of the loop of `DEC_BULK` on a group of four alphabet characters. -/
theorem decodeGroup_valid {p : Platform} {src dst g : Nat} {m : Memory} {bytes : List Byte}
    (h : Answers p (src + 4 * g) 4) (hb : decBytes src g m = some bytes) :
    decodeGroup p src dst g m =
      if Answers p (dst + 3 * g) 3 then .ok (Memory.writeSeq m (dst + 3 * g) bytes) else .error (.busError g) := by
  simp only [decodeGroup, readChars_eq]
  rw [if_pos h]
  simp only [hb]
  by_cases hd : Answers p (dst + 3 * g) 3
  · rw [if_pos hd, memWriteSeq_of_answers (by rw [fullBytes_length hb]; exact hd)]
  · rw [if_neg hd, memWriteSeq_of_not_answers (by rw [fullBytes_length hb]; exact hd)]

/-- A pass of the loop of `DEC_BULK` that succeeds. -/
theorem decodeGroup_eq_ok {p : Platform} {src dst g : Nat} {m m' : Memory}
    (h : decodeGroup p src dst g m = .ok m') :
    Answers p (src + 4 * g) 4 ∧ Answers p (dst + 3 * g) 3 ∧
      ∃ bytes, decBytes src g m = some bytes ∧ m' = Memory.writeSeq m (dst + 3 * g) bytes := by
  by_cases hs : Answers p (src + 4 * g) 4
  · cases hb : decBytes src g m with
    | none => rw [decodeGroup_malformed hs hb] at h; exact absurd h (by simp)
    | some bytes =>
      rw [decodeGroup_valid hs hb] at h
      split at h
      · next hd => exact ⟨hs, hd, bytes, rfl, (Except.ok.inj h).symm⟩
      · exact absurd h (by simp)
  · rw [decodeGroup_unread hs] at h
    exact absurd h (by simp)

theorem decodeGroup_eq_error {p : Platform} {src dst g : Nat} {m : Memory} {e : Failure}
    (h : decodeGroup p src dst g m = .error e) : e = .busError g ∨ e = .malformedInput g := by
  by_cases hs : Answers p (src + 4 * g) 4
  · cases hb : decBytes src g m with
    | none => rw [decodeGroup_malformed hs hb] at h; exact .inr (Except.error.inj h).symm
    | some bytes =>
      rw [decodeGroup_valid hs hb] at h
      split at h
      · exact absurd h (by simp)
      · exact .inl (Except.error.inj h).symm
  · rw [decodeGroup_unread hs] at h
    exact .inl (Except.error.inj h).symm

end Sys2Proof.Machine
end

