-- ==== Sys2Proof/Laws/State.lean ====
section
/-! SUPPORT. One lemma per field per update of the state, so that no proof unfolds a record update. -/

namespace Sys2Proof.Machine

@[simp] theorem finish_srcAddr (result pads : Nat) (s : State) : (finish result pads s).srcAddr = s.srcAddr := rfl
@[simp] theorem finish_srcLen (result pads : Nat) (s : State) : (finish result pads s).srcLen = s.srcLen := rfl
@[simp] theorem finish_dstAddr (result pads : Nat) (s : State) : (finish result pads s).dstAddr = s.dstAddr := rfl
@[simp] theorem finish_dstCap (result pads : Nat) (s : State) : (finish result pads s).dstCap = s.dstCap := rfl
@[simp] theorem finish_cmd (result pads : Nat) (s : State) : (finish result pads s).cmd = s.cmd := rfl
@[simp] theorem finish_status (result pads : Nat) (s : State) : (finish result pads s).status = statusWord (BitVec.ofNat 2 pads) 0 codeOk := rfl
@[simp] theorem finish_result (result pads : Nat) (s : State) : (finish result pads s).result = BitVec.ofNat 32 result := rfl
@[simp] theorem finish_errGroup (result pads : Nat) (s : State) : (finish result pads s).errGroup = 0 := rfl
@[simp] theorem finish_mem (result pads : Nat) (s : State) : (finish result pads s).mem = s.mem := rfl
@[simp] theorem finish_platform (result pads : Nat) (s : State) : (finish result pads s).platform = s.platform := rfl
@[simp] theorem finish_pending (result pads : Nat) (s : State) : (finish result pads s).pending = s.pending := rfl
@[simp] theorem finish_response (result pads : Nat) (s : State) : (finish result pads s).response = s.response := rfl
@[simp] theorem finish_draws (result pads : Nat) (s : State) : (finish result pads s).draws = s.draws := rfl

@[simp] theorem raise_srcAddr (e : Failure) (s : State) : (raise e s).srcAddr = s.srcAddr := rfl
@[simp] theorem raise_srcLen (e : Failure) (s : State) : (raise e s).srcLen = s.srcLen := rfl
@[simp] theorem raise_dstAddr (e : Failure) (s : State) : (raise e s).dstAddr = s.dstAddr := rfl
@[simp] theorem raise_dstCap (e : Failure) (s : State) : (raise e s).dstCap = s.dstCap := rfl
@[simp] theorem raise_cmd (e : Failure) (s : State) : (raise e s).cmd = s.cmd := rfl
@[simp] theorem raise_status (e : Failure) (s : State) : (raise e s).status = statusWord 0 e.reason e.code := rfl
@[simp] theorem raise_result (e : Failure) (s : State) : (raise e s).result = 0 := rfl
@[simp] theorem raise_errGroup (e : Failure) (s : State) : (raise e s).errGroup = BitVec.ofNat 32 e.group := rfl
@[simp] theorem raise_mem (e : Failure) (s : State) : (raise e s).mem = s.mem := rfl
@[simp] theorem raise_platform (e : Failure) (s : State) : (raise e s).platform = s.platform := rfl
@[simp] theorem raise_pending (e : Failure) (s : State) : (raise e s).pending = s.pending := rfl
@[simp] theorem raise_response (e : Failure) (s : State) : (raise e s).response = s.response := rfl
@[simp] theorem raise_draws (e : Failure) (s : State) : (raise e s).draws = s.draws := rfl

@[simp] theorem drawWindow_srcAddr (out : Nat) (s : State) : (drawWindow out s).srcAddr = s.srcAddr := rfl
@[simp] theorem drawWindow_srcLen (out : Nat) (s : State) : (drawWindow out s).srcLen = s.srcLen := rfl
@[simp] theorem drawWindow_dstAddr (out : Nat) (s : State) : (drawWindow out s).dstAddr = s.dstAddr := rfl
@[simp] theorem drawWindow_dstCap (out : Nat) (s : State) : (drawWindow out s).dstCap = s.dstCap := rfl
@[simp] theorem drawWindow_cmd (out : Nat) (s : State) : (drawWindow out s).cmd = s.cmd := rfl
@[simp] theorem drawWindow_status (out : Nat) (s : State) : (drawWindow out s).status = s.status := rfl
@[simp] theorem drawWindow_result (out : Nat) (s : State) : (drawWindow out s).result = s.result := rfl
@[simp] theorem drawWindow_errGroup (out : Nat) (s : State) : (drawWindow out s).errGroup = s.errGroup := rfl
@[simp] theorem drawWindow_mem (out : Nat) (s : State) : (drawWindow out s).mem = drawBytes s.platform s.dstAddr.toNat s.draws out s.mem := rfl
@[simp] theorem drawWindow_platform (out : Nat) (s : State) : (drawWindow out s).platform = s.platform := rfl
@[simp] theorem drawWindow_pending (out : Nat) (s : State) : (drawWindow out s).pending = s.pending := rfl
@[simp] theorem drawWindow_response (out : Nat) (s : State) : (drawWindow out s).response = s.response := rfl
@[simp] theorem drawWindow_draws (out : Nat) (s : State) : (drawWindow out s).draws = s.draws + out := rfl

@[simp] theorem answer_srcAddr (r : Response) (s : State) : (answer r s).srcAddr = s.srcAddr := rfl
@[simp] theorem answer_srcLen (r : Response) (s : State) : (answer r s).srcLen = s.srcLen := rfl
@[simp] theorem answer_dstAddr (r : Response) (s : State) : (answer r s).dstAddr = s.dstAddr := rfl
@[simp] theorem answer_dstCap (r : Response) (s : State) : (answer r s).dstCap = s.dstCap := rfl
@[simp] theorem answer_cmd (r : Response) (s : State) : (answer r s).cmd = s.cmd := rfl
@[simp] theorem answer_status (r : Response) (s : State) : (answer r s).status = s.status := rfl
@[simp] theorem answer_result (r : Response) (s : State) : (answer r s).result = s.result := rfl
@[simp] theorem answer_errGroup (r : Response) (s : State) : (answer r s).errGroup = s.errGroup := rfl
@[simp] theorem answer_mem (r : Response) (s : State) : (answer r s).mem = s.mem := rfl
@[simp] theorem answer_platform (r : Response) (s : State) : (answer r s).platform = s.platform := rfl
@[simp] theorem answer_pending (r : Response) (s : State) : (answer r s).pending = s.pending := rfl
@[simp] theorem answer_response (r : Response) (s : State) : (answer r s).response = r := rfl
@[simp] theorem answer_draws (r : Response) (s : State) : (answer r s).draws = s.draws := rfl

@[simp] theorem resetUnit_srcAddr (s : State) : (resetUnit s).srcAddr = 0 := rfl
@[simp] theorem resetUnit_srcLen (s : State) : (resetUnit s).srcLen = 0 := rfl
@[simp] theorem resetUnit_dstAddr (s : State) : (resetUnit s).dstAddr = 0 := rfl
@[simp] theorem resetUnit_dstCap (s : State) : (resetUnit s).dstCap = 0 := rfl
@[simp] theorem resetUnit_cmd (s : State) : (resetUnit s).cmd = 0 := rfl
@[simp] theorem resetUnit_status (s : State) : (resetUnit s).status = 0 := rfl
@[simp] theorem resetUnit_result (s : State) : (resetUnit s).result = 0 := rfl
@[simp] theorem resetUnit_errGroup (s : State) : (resetUnit s).errGroup = 0 := rfl
@[simp] theorem resetUnit_mem (s : State) : (resetUnit s).mem = s.mem := rfl
@[simp] theorem resetUnit_platform (s : State) : (resetUnit s).platform = s.platform := rfl
@[simp] theorem resetUnit_pending (s : State) : (resetUnit s).pending = s.pending := rfl
@[simp] theorem resetUnit_response (s : State) : (resetUnit s).response = .noAnswer := rfl
@[simp] theorem resetUnit_draws (s : State) : (resetUnit s).draws = s.draws := rfl

@[simp] theorem operands_src (s : State) : (operands s).src = s.srcAddr.toNat := rfl
@[simp] theorem operands_len (s : State) : (operands s).len = s.srcLen.toNat := rfl
@[simp] theorem operands_dst (s : State) : (operands s).dst = s.dstAddr.toNat := rfl
@[simp] theorem operands_cap (s : State) : (operands s).cap = s.dstCap.toNat := rfl

/-- What a host write stores in one word of the window, read back: the operand registers and `CMD` take it, the others do
not. -/
theorem readReg_storeReg (r q : Reg) (v : Word) (s : State) :
    readReg q (storeReg r v s) =
      if q = r ∧ (r = .srcAddr ∨ r = .srcLen ∨ r = .dstAddr ∨ r = .dstCap ∨ r = .cmd) then v else readReg q s := by
  cases r <;> cases q <;> rfl

@[simp] theorem storeReg_mem (r : Reg) (v : Word) (s : State) : (storeReg r v s).mem = s.mem := by cases r <;> rfl
@[simp] theorem storeReg_platform (r : Reg) (v : Word) (s : State) : (storeReg r v s).platform = s.platform := by
  cases r <;> rfl
@[simp] theorem storeReg_pending (r : Reg) (v : Word) (s : State) : (storeReg r v s).pending = s.pending := by
  cases r <;> rfl
@[simp] theorem storeReg_response (r : Reg) (v : Word) (s : State) : (storeReg r v s).response = s.response := by
  cases r <;> rfl
@[simp] theorem storeReg_draws (r : Reg) (v : Word) (s : State) : (storeReg r v s).draws = s.draws := by cases r <;> rfl
@[simp] theorem storeReg_status (r : Reg) (v : Word) (s : State) : (storeReg r v s).status = s.status := by
  cases r <;> rfl
@[simp] theorem storeReg_result (r : Reg) (v : Word) (s : State) : (storeReg r v s).result = s.result := by
  cases r <;> rfl
@[simp] theorem storeReg_errGroup (r : Reg) (v : Word) (s : State) : (storeReg r v s).errGroup = s.errGroup := by
  cases r <;> rfl

end Sys2Proof.Machine
end

