-- ==== Sys2Proof/Laws/Outcome.lean ====
section
/-! SUPPORT. The fields of a `STATUS` word, and what `finish` and `raise` leave in the outcome registers. -/

namespace Sys2Proof.Machine

theorem statusWord_toNat (pads : BitVec 2) (reason code : Nibble) :
    (statusWord pads reason code).toNat = 256 * pads.toNat + 16 * reason.toNat + code.toNat := by
  have hp := pads.isLt
  have hr := reason.isLt
  have hc := code.isLt
  simp only [statusWord, BitVec.toNat_setWidth, BitVec.toNat_append]
  rw [← Nat.shiftLeft_add_eq_or_of_lt hr, ← Nat.shiftLeft_add_eq_or_of_lt hc, Nat.shiftLeft_eq, Nat.shiftLeft_eq]
  omega

@[simp] theorem codeField_statusWord (pads : BitVec 2) (reason code : Nibble) :
    codeField (statusWord pads reason code) = code := by
  apply BitVec.eq_of_toNat_eq
  have hc := code.isLt
  simp only [codeField, BitVec.extractLsb'_toNat, statusWord_toNat, Nat.shiftRight_zero]
  omega

@[simp] theorem reasonField_statusWord (pads : BitVec 2) (reason code : Nibble) :
    reasonField (statusWord pads reason code) = reason := by
  apply BitVec.eq_of_toNat_eq
  have hr := reason.isLt
  have hc := code.isLt
  simp only [reasonField, BitVec.extractLsb'_toNat, statusWord_toNat, Nat.shiftRight_eq_div_pow]
  omega

@[simp] theorem padsField_statusWord (pads : BitVec 2) (reason code : Nibble) :
    padsField (statusWord pads reason code) = pads := by
  apply BitVec.eq_of_toNat_eq
  have hp := pads.isLt
  have hr := reason.isLt
  have hc := code.isLt
  simp only [padsField, BitVec.extractLsb'_toNat, statusWord_toNat, Nat.shiftRight_eq_div_pow]
  omega

@[simp] theorem statusReserved_statusWord (pads : BitVec 2) (reason code : Nibble) :
    statusReserved (statusWord pads reason code) = 0 := by
  apply BitVec.eq_of_toNat_eq
  have hp := pads.isLt
  have hr := reason.isLt
  have hc := code.isLt
  simp only [statusReserved, BitVec.extractLsb'_toNat, statusWord_toNat, Nat.shiftRight_eq_div_pow,
    BitVec.ofNat_eq_ofNat, BitVec.toNat_ofNat]
  omega

theorem Reason.code_bounds (r : Reason) : r.code ≠ 0 ∧ r.code.toNat ≤ 9 := by cases r <;> decide

/-- What `finish` records (60_exceptions.md R204, R205). -/
theorem finish_outcome {result pads : Nat} (hr : result < 2 ^ 32) (hp : pads < 4) (s : State) :
    OutcomeIs (finish result pads s) pads 0 1 result 0 := by
  refine ⟨?_, ?_, rfl⟩
  · rw [finish_status, statusWord_toNat, BitVec.toNat_ofNat, Nat.mod_eq_of_lt hp]; rfl
  · rw [finish_result, BitVec.toNat_ofNat, Nat.mod_eq_of_lt hr]

/-- What `raise` records (60_exceptions.md R204, R206). -/
theorem raise_outcome (e : Failure) (s : State) (hg : e.group < 2 ^ 32) :
    OutcomeIs (raise e s) 0 e.reason.toNat e.code.toNat 0 e.group := by
  refine ⟨?_, rfl, ?_⟩
  · rw [raise_status, statusWord_toNat]; rfl
  · rw [raise_errGroup, BitVec.toNat_ofNat, Nat.mod_eq_of_lt hg]

theorem finish_legal {result pads : Nat} (hp : pads ≤ 2) (s : State) : OutcomeLegal (finish result pads s) := by
  have h : pads % 4 ≤ 2 := by omega
  constructor <;> simp [codeOk, h]

theorem raise_legal (e : Failure) (s : State) : OutcomeLegal (raise e s) := by
  cases e with
  | invalidArgument r =>
    obtain ⟨hne, hle⟩ := r.code_bounds
    have hne : r.code ≠ 0#4 := hne
    constructor <;> simp [Failure.code, Failure.reason, Failure.group, hne, hle]
  | malformedInput g => constructor <;> simp [Failure.code, Failure.reason]
  | illegalCommand => constructor <;> simp [Failure.code, Failure.reason, Failure.group]
  | busError g => constructor <;> simp [Failure.code, Failure.reason]

end Sys2Proof.Machine
end

