-- ==== Sys2Proof/Laws/Checks.lean ====
section
/-! SUPPORT. When the argument checks of 60_exceptions.md R203 pass, and what each of them answers. -/

namespace Sys2Proof.Machine

theorem checkLen_eq_none {n : Nat} (hn : n ≠ 0) (K : LenClass) : checkLen n K = none ↔ LenAccepted K n := by
  cases K <;> simp only [checkLen, LenAccepted] <;> split <;> simp_all <;> omega

/-- `CheckSrc` passes exactly on usable source operands. -/
theorem checkSrc_eq_none {o : Operands} {K : LenClass} : checkSrc o K = none ↔ SrcUsable o K := by
  unfold checkSrc
  split
  · next h => simp [h]
  · next h =>
    split
    · next hn =>
      simp only [reduceCtorEq, false_iff, not_and]
      intro _ hK
      cases K <;> simp only [LenAccepted] at hK <;> omega
    · next hn =>
      cases hc : checkLen o.len K with
      | some r =>
        have hK : ¬LenAccepted K o.len := fun hK => by
          rw [(checkLen_eq_none hn K).mpr hK] at hc
          exact absurd hc (by simp)
        simp only [reduceCtorEq, false_iff, not_and]
        exact fun _ h2 => absurd h2 hK
      | none =>
        have hK := (checkLen_eq_none hn K).mp hc
        dsimp only
        split
        · next hw =>
          simp only [reduceCtorEq, false_iff, not_and, not_le]
          exact fun _ _ => hw
        · next hw => simp only [true_iff]; exact ⟨h, hK, by omega⟩

/-- `CheckDst` passes exactly on usable destination operands. -/
theorem checkDst_eq_none {o : Operands} {out : Nat} : checkDst o out = none ↔ DstUsable o out := by
  unfold checkDst DstUsable WindowsApart
  split
  · next h => simp [h]
  · split
    · next h => simp only [reduceCtorEq, false_iff]; omega
    · split
      · next h => simp only [reduceCtorEq, false_iff]; omega
      · split
        · next h => simp only [reduceCtorEq, false_iff]; omega
        · next h => simp only [true_iff]; omega

theorem checkArgs_eq_ok {o : Operands} {K : LenClass} {out x : Nat} :
    checkArgs o K out = .ok x ↔ SrcUsable o K ∧ DstUsable o out ∧ x = out := by
  unfold checkArgs
  cases hs : checkSrc o K with
  | some r =>
    have : ¬SrcUsable o K := fun h => by rw [checkSrc_eq_none.mpr h] at hs; exact absurd hs (by simp)
    simp only [reduceCtorEq, false_iff]
    exact fun h => this h.1
  | none =>
    have hs := checkSrc_eq_none.mp hs
    cases hd : checkDst o out with
    | some r =>
      have : ¬DstUsable o out := fun h => by rw [checkDst_eq_none.mpr h] at hd; exact absurd hd (by simp)
      simp only [reduceCtorEq, false_iff]
      exact fun h => this h.2.1
    | none =>
      have hd := checkDst_eq_none.mp hd
      simp only [Except.ok.injEq]
      exact ⟨fun h => ⟨hs, hd, h.symm⟩, fun h => h.2.2.symm⟩

/-- A failure of the argument checks is an invalid argument. -/
theorem checkArgs_eq_error {o : Operands} {K : LenClass} {out : Nat} {e : Failure}
    (h : checkArgs o K out = .error e) : ∃ r, e = .invalidArgument r := by
  unfold checkArgs at h
  split at h
  · next r _ => exact ⟨r, (Except.error.inj h).symm⟩
  · split at h
    · next r _ => exact ⟨r, (Except.error.inj h).symm⟩
    · exact absurd h (by simp)

theorem checkArgs_of_src {o : Operands} {K : LenClass} {out : Nat} {r : Reason} (h : checkSrc o K = some r) :
    checkArgs o K out = .error (.invalidArgument r) := by
  simp only [checkArgs, h]

theorem checkArgs_of_dst {o : Operands} {K : LenClass} {out : Nat} {r : Reason} (hs : checkSrc o K = none)
    (hd : checkDst o out = some r) : checkArgs o K out = .error (.invalidArgument r) := by
  simp only [checkArgs, hs, hd]

end Sys2Proof.Machine
end

