-- ==== Sys2Proof/Laws/Commands.lean ====
section
/-! SUPPORT. What each command can do, said once: the operands it accepts, what a success writes and what a failure leaves. -/

namespace Sys2Proof.Machine

/-- The ways a command can end. -/
inductive Ended (i : Instr) (s : State) : State → Prop where
  /-- failed before its destination checks had passed: memory is as it was -/
  | rejected (e : Failure) (he : e ≠ .illegalCommand) (hm : ∀ g, e ≠ .malformedInput g)
      (hw : windowLength i s = none) : Ended i s (raise e s)
  /-- ended `OK`, with the memory `m` -/
  | done (result pads : Nat) (m : Memory) (hp : pads ≤ 2) (hr : result < 2 ^ 32)
      (hwf : Memory.wf s.mem = true → Memory.wf m = true)
      (hm : (windowLength i s = none ∧ m = s.mem) ∨
        (windowLength i s = some result ∧
          ∀ a, ¬(s.dstAddr.toNat ≤ a ∧ a < s.dstAddr.toNat + result ∧ Platform.accessible s.platform a = true) →
            Memory.read m a = Memory.read s.mem a)) :
      Ended i s (finish result pads { s with mem := m })
  /-- failed after its destination checks had passed: its destination window is unspecified -/
  | spoiled (out g : Nat) (e : Failure) (hw : windowLength i s = some out)
      (he : e = .busError g ∨ e = .malformedInput g) : Ended i s (raise e (drawWindow out s))

theorem windowLength_encBulk {s : State} {out : Nat} :
    windowLength .encBulk s = some out ↔ encBulkPrepare s = .ok out := by
  simp only [windowLength]
  cases encBulkPrepare s <;> simp [Except.toOption]

theorem windowLength_encBound {s : State} {out : Nat} :
    windowLength .encBound s = some out ↔ encBoundPrepare s = .ok out := by
  simp only [windowLength]
  cases encBoundPrepare s <;> simp [Except.toOption]

theorem windowLength_decBulk {s : State} {out : Nat} :
    windowLength .decBulk s = some out ↔ decBulkPrepare s = .ok out := by
  simp only [windowLength]
  cases decBulkPrepare s <;> simp [Except.toOption]

theorem windowLength_none_of_error {i : Instr} {s : State} {e : Failure}
    (h : match i with
      | .encBulk => encBulkPrepare s = .error e
      | .encBound => encBoundPrepare s = .error e
      | .decBulk => decBulkPrepare s = .error e
      | .decBound => decBoundPrepare s = .error e
      | .decSize => True) : windowLength i s = none := by
  cases i <;> simp_all [windowLength, Except.toOption]

/-- What `conclude` can do. -/
theorem conclude_ok {out pads : Nat} {m : Memory} {s : State} :
    conclude out pads (.ok m) s = finish out pads { s with mem := m } := rfl

theorem conclude_error {out pads : Nat} {e : Failure} {s : State} :
    conclude out pads (.error e) s = raise e (drawWindow out s) := rfl

/-- The checks of `DEC_BOUND` pass exactly when the source is usable and readable and the destination takes `3 - p` bytes. -/
theorem decBoundPrepare_eq_ok {s : State} {t : TailGroup} :
    decBoundPrepare s = .ok t ↔
      SrcUsable (operands s) .bound4 ∧ Answers s.platform s.srcAddr.toNat 4 ∧
        (t.c0, t.c1, t.c2, t.c3) = charsAt s.mem s.srcAddr.toNat ∧ t.out = 3 - padCount t.c2 t.c3 ∧
        DstUsable (operands s) t.out := by
  unfold decBoundPrepare
  cases hs : checkSrc (operands s) .bound4 with
  | some r =>
    have : ¬SrcUsable (operands s) .bound4 := fun h => by
      rw [checkSrc_eq_none.mpr h] at hs; exact absurd hs (by simp)
    simp only [reduceCtorEq, false_iff]
    exact fun h => this h.1
  | none =>
    have hs := checkSrc_eq_none.mp hs
    rw [readChars_eq]
    by_cases ha : Answers s.platform (operands s).src 4
    · rw [if_pos ha]
      simp only [charsAt]
      cases hd : checkDst (operands s) (3 - padCount (Memory.read s.mem ((operands s).src + 2))
          (Memory.read s.mem ((operands s).src + 3))) with
      | some r =>
        simp only [reduceCtorEq, false_iff]
        rintro ⟨-, -, hc, ho, hu⟩
        simp only [Prod.mk.injEq] at hc
        rw [ho, hc.2.2.1, hc.2.2.2] at hu
        rw [← operands_src] at hu
        rw [checkDst_eq_none.mpr hu] at hd
        exact absurd hd (by simp)
      | none =>
        have hd := checkDst_eq_none.mp hd
        simp only [Except.ok.injEq]
        constructor
        · rintro rfl
          exact ⟨hs, ha, rfl, rfl, hd⟩
        · rintro ⟨-, -, hc, ho, hu⟩
          simp only [Prod.mk.injEq] at hc
          obtain ⟨c0, c1, c2, c3, out⟩ := t
          obtain ⟨rfl, rfl, rfl, rfl⟩ := hc
          simp only at ho
          rw [ho, operands_src]
    · rw [if_neg ha]
      simp only [reduceCtorEq, false_iff]
      exact fun h => ha h.2.1

/-- A failure before the destination checks of `DEC_BOUND` have passed. -/
theorem decBoundPrepare_eq_error {s : State} {e : Failure} (h : decBoundPrepare s = .error e) :
    (∃ r, e = .invalidArgument r) ∨ e = .busError 0 := by
  unfold decBoundPrepare at h
  split at h
  · next r _ => exact .inl ⟨r, (Except.error.inj h).symm⟩
  · split at h
    · exact .inr (Except.error.inj h).symm
    · split at h
      · next r _ => exact .inl ⟨r, (Except.error.inj h).symm⟩
      · exact absurd h (by simp)

theorem padCount_le (a b : Byte) : padCount a b ≤ 2 := by
  unfold padCount; split <;> (try split) <;> omega

/-- As many bytes as the pad count leaves. -/
theorem tailBytes_length {c0 c1 c2 c3 : Byte} {bytes : List Byte} (h : tailBytes c0 c1 c2 c3 = some bytes) :
    bytes.length = 3 - padCount c2 c3 := by
  unfold tailBytes at h
  have hle := padCount_le c2 c3
  split at h
  · split at h
    · next hp => rw [hp, ← Option.some.inj h]; rfl
    · split at h
      · exact absurd h (by simp)
      · split at h
        · next hp => rw [hp, ← Option.some.inj h]; rfl
        · split at h
          · exact absurd h (by simp)
          · rw [show padCount c2 c3 = 0 by omega, ← Option.some.inj h]; rfl
  · exact absurd h (by simp)

theorem boundChars_length (n : Nat) (b0 b1 : Byte) : (boundChars n b0 b1).length = 4 := rfl

/-- What the accesses of `ENC_BOUND` do on 1 or 2 bytes: all of them, or `BusError`. -/
theorem encodeTail_eq {p : Platform} {src dst n : Nat} (hn : n = 1 ∨ n = 2) (m : Memory) :
    encodeTail p src dst n m =
      if Answers p src n ∧ Answers p dst 4 then
        some (Memory.writeSeq m dst
          (boundChars n (Memory.read m src) (if n = 2 then Memory.read m (src + 1) else 0x00)))
      else none := by
  have h0 : Answers p src n ↔ Platform.accessible p src = true ∧ (n = 2 → Platform.accessible p (src + 1) = true) := by
    constructor
    · exact fun h => ⟨h 0 (by omega), fun h2 => h 1 (by omega)⟩
    · intro h k hk
      obtain rfl | ⟨rfl, h2⟩ : k = 0 ∨ k = 1 ∧ n = 2 := by omega
      · exact h.1
      · exact h.2 h2
  unfold encodeTail
  by_cases ha : Platform.accessible p src = true
  · rw [memRead_of_accessible ha]
    simp only [readSecond]
    by_cases h2 : n = 2
    · simp only [h2, if_true]
      by_cases hb : Platform.accessible p (src + 1) = true
      · rw [memRead_of_accessible hb]
        simp only
        by_cases hd : Answers p dst 4
        · rw [if_pos ⟨(h2 ▸ h0).mpr ⟨ha, fun _ => hb⟩, hd⟩,
            memWriteSeq_of_answers (by rw [boundChars_length]; exact hd)]
        · rw [if_neg (fun h => hd h.2), memWriteSeq_of_not_answers (by rw [boundChars_length]; exact hd)]
      · rw [memRead_eq_none.mpr hb, if_neg (fun h => hb (((h2 ▸ h0).mp h.1).2 rfl))]
    · simp only [h2, if_false]
      by_cases hd : Answers p dst 4
      · rw [if_pos ⟨h0.mpr ⟨ha, fun h => absurd h h2⟩, hd⟩,
          memWriteSeq_of_answers (by rw [boundChars_length]; exact hd)]
      · rw [if_neg (fun h => hd h.2), memWriteSeq_of_not_answers (by rw [boundChars_length]; exact hd)]
  · rw [memRead_eq_none.mpr ha, if_neg (fun h => ha (h0.mp h.1).1)]

theorem readLastTwo_eq_some {s : State} {a b : Byte} :
    readLastTwo s = some (a, b) ↔
      Platform.accessible s.platform (s.srcAddr.toNat + s.srcLen.toNat - 2) = true ∧
        Platform.accessible s.platform (s.srcAddr.toNat + s.srcLen.toNat - 1) = true ∧
        a = byteAt s (s.srcAddr.toNat + s.srcLen.toNat - 2) ∧ b = byteAt s (s.srcAddr.toNat + s.srcLen.toNat - 1) := by
  unfold readLastTwo
  simp only [operands_src, operands_len]
  split
  · next h => rw [memRead_eq_none] at h; simp [h]
  · next v h =>
    rw [memRead_eq_some] at h
    split
    · next h' => rw [memRead_eq_none] at h'; simp [h']
    · next w h' =>
      rw [memRead_eq_some] at h'
      simp only [Option.some.injEq, Prod.mk.injEq, h.1, h'.1, true_and, h.2, h'.2]
      exact ⟨fun e => ⟨e.1.symm, e.2.symm⟩, fun e => ⟨e.1.symm, e.2.symm⟩⟩

theorem decodedSize_lt {n p : Nat} (hn : n < 2 ^ 32) : decodedSize n p < 2 ^ 32 := by
  unfold decodedSize; omega

/-- What `ENC_BULK` can do. -/
theorem encBulk_ended (s : State) : Ended .encBulk s (encBulk s) := by
  unfold encBulk
  cases hp : encBulkPrepare s with
  | error e =>
    obtain ⟨r, rfl⟩ := checkArgs_eq_error hp
    exact .rejected _ (by simp) (by simp) (windowLength_none_of_error (i := .encBulk) hp)
  | ok out =>
    obtain ⟨hs, hd, rfl⟩ := checkArgs_eq_ok.mp hp
    simp only
    cases hr : forGroups (encodeGroup s.platform (operands s).src (operands s).dst) ((operands s).len / 3) 0 s.mem with
    | error e =>
      obtain ⟨j, m', -, -, hj⟩ := forGroups_error_cases hr
      rw [encodeGroup_eq] at hj
      split at hj
      · exact absurd hj (by simp)
      · exact .spoiled _ j e (windowLength_encBulk.mpr hp) (.inl (Except.error.inj hj).symm)
    | ok m =>
      have hcap := s.dstCap.isLt
      have hout : encBulkOut (operands s) = 4 * (s.srcLen.toNat / 3) := rfl
      obtain ⟨hne, hcap', htop, -⟩ := hd
      simp only [operands_dst, operands_cap] at hcap' htop
      refine .done _ 0 m (by omega) (by omega) (fun hwf => ?_) (.inr ⟨windowLength_encBulk.mpr hp, ?_⟩)
      · refine forGroups_keeps (P := fun m => Memory.wf m = true) (fun j m m' _ hj h hm => ?_) hr hwf
        rw [encodeGroup_eq] at h
        split at h
        · rw [← Except.ok.inj h]
          exact Memory.wf_writeSeq _ hm (by rw [enc3_length]; simp only [operands_len, operands_dst] at hj ⊢; omega)
        · exact absurd h (by simp)
      · refine forGroups_keeps (P := fun m => ∀ a, ¬(s.dstAddr.toNat ≤ a ∧
          a < s.dstAddr.toNat + encBulkOut (operands s) ∧ Platform.accessible s.platform a = true) →
            Memory.read m a = Memory.read s.mem a)
          (fun j m m' _ hj h hm a ha => ?_) hr (fun _ _ => rfl)
        rw [encodeGroup_eq] at h
        split at h
        · next hacc =>
          rw [← Except.ok.inj h, Memory.read_writeSeq, enc3_length, if_neg]
          · exact hm a ha
          · intro hin
            have := hacc.2.at_address hin.1 hin.2
            simp only [operands_len, operands_dst] at hj hin; exact ha ⟨by omega, by omega, this⟩
        · exact absurd h (by simp)

/-- What `ENC_BOUND` can do. -/
theorem encBound_ended (s : State) : Ended .encBound s (encBound s) := by
  unfold encBound
  cases hp : encBoundPrepare s with
  | error e =>
    obtain ⟨r, rfl⟩ := checkArgs_eq_error hp
    exact .rejected _ (by simp) (by simp) (windowLength_none_of_error (i := .encBound) hp)
  | ok out =>
    obtain ⟨hs, hd, rfl⟩ := checkArgs_eq_ok.mp hp
    simp only [encBoundRun]
    have hlen : (operands s).len = 1 ∨ (operands s).len = 2 := hs.2.1
    rw [encodeTail_eq hlen]
    obtain ⟨hne, hcap', htop, -⟩ := hd
    split
    · next h =>
      split at h
      · exact absurd h (by simp)
      · exact .spoiled 4 0 _ (windowLength_encBound.mpr hp) (.inl rfl)
    · next m h =>
      split at h
      · next hacc =>
        rw [← Option.some.inj h]
        refine .done 4 _ _ (by omega) (by omega) (fun hwf => ?_) (.inr ⟨windowLength_encBound.mpr hp, fun a ha => ?_⟩)
        · exact Memory.wf_writeSeq _ hwf (by rw [boundChars_length]; exact htop)
        · rw [Memory.read_writeSeq, boundChars_length, if_neg]
          exact fun hin => ha ⟨hin.1, hin.2, hacc.2.at_address hin.1 hin.2⟩
      · exact absurd h (by simp)

/-- What `DEC_BULK` can do. -/
theorem decBulk_ended (s : State) : Ended .decBulk s (decBulk s) := by
  unfold decBulk
  cases hp : decBulkPrepare s with
  | error e =>
    obtain ⟨r, rfl⟩ := checkArgs_eq_error hp
    exact .rejected _ (by simp) (by simp) (windowLength_none_of_error (i := .decBulk) hp)
  | ok out =>
    obtain ⟨hs, hd, rfl⟩ := checkArgs_eq_ok.mp hp
    simp only
    cases hr : forGroups (decodeGroup s.platform (operands s).src (operands s).dst) ((operands s).len / 4) 0 s.mem with
    | error e =>
      obtain ⟨j, m', -, -, hj⟩ := forGroups_error_cases hr
      exact .spoiled _ j e (windowLength_decBulk.mpr hp) (decodeGroup_eq_error hj)
    | ok m =>
      have hcap := s.dstCap.isLt
      have hout : decBulkOut (operands s) = 3 * (s.srcLen.toNat / 4) := rfl
      obtain ⟨hne, hcap', htop, -⟩ := hd
      simp only [operands_dst, operands_cap] at hcap' htop
      refine .done _ 0 m (by omega) (by omega) (fun hwf => ?_) (.inr ⟨windowLength_decBulk.mpr hp, ?_⟩)
      · refine forGroups_keeps (P := fun m => Memory.wf m = true) (fun j m m' _ hj h hm => ?_) hr hwf
        obtain ⟨-, -, bytes, hb, rfl⟩ := decodeGroup_eq_ok h
        exact Memory.wf_writeSeq _ hm
          (by rw [fullBytes_length hb]; simp only [operands_len, operands_dst] at hj ⊢; omega)
      · refine forGroups_keeps (P := fun m => ∀ a, ¬(s.dstAddr.toNat ≤ a ∧
          a < s.dstAddr.toNat + decBulkOut (operands s) ∧ Platform.accessible s.platform a = true) →
            Memory.read m a = Memory.read s.mem a)
          (fun j m m' _ hj h hm a ha => ?_) hr (fun _ _ => rfl)
        obtain ⟨-, hacc, bytes, hb, rfl⟩ := decodeGroup_eq_ok h
        rw [Memory.read_writeSeq, fullBytes_length hb, if_neg]
        · exact hm a ha
        · intro hin
          have := hacc.at_address hin.1 hin.2
          simp only [operands_len, operands_dst] at hj hin; exact ha ⟨by omega, by omega, this⟩

/-- What `DEC_BOUND` can do. -/
theorem decBound_ended (s : State) : Ended .decBound s (decBound s) := by
  unfold decBound
  cases hp : decBoundPrepare s with
  | error e =>
    refine .rejected e ?_ ?_ (windowLength_none_of_error (i := .decBound) hp)
    · obtain ⟨r, rfl⟩ | rfl := decBoundPrepare_eq_error hp <;> simp
    · obtain ⟨r, rfl⟩ | rfl := decBoundPrepare_eq_error hp <;> simp
  | ok t =>
    have hw : windowLength .decBound s = some t.out := by simp [windowLength, hp, Except.toOption]
    obtain ⟨hs, ha, hc, hout, hd⟩ := decBoundPrepare_eq_ok.mp hp
    have hle := padCount_le t.c2 t.c3
    simp only [decBoundRun]
    cases hb : tailBytes t.c0 t.c1 t.c2 t.c3 with
    | none => exact .spoiled t.out 0 _ hw (.inr rfl)
    | some bytes =>
      have hlen : bytes.length = t.out := by rw [tailBytes_length hb, hout]
      simp only
      cases hm : memWriteSeq s.platform s.mem (operands s).dst bytes with
      | none => exact .spoiled t.out 0 _ hw (.inl rfl)
      | some m =>
        obtain ⟨hacc, rfl⟩ := memWriteSeq_eq_some.mp hm
        refine .done _ _ _ hle (by omega) (fun hwf => ?_) (.inr ⟨hw, fun a ha' => ?_⟩)
        · exact Memory.wf_writeSeq _ hwf (by rw [hlen]; exact hd.2.2.1)
        · rw [Memory.read_writeSeq, hlen, operands_dst, if_neg]
          exact fun hin => ha' ⟨hin.1, hin.2, Answers.at_address (len := t.out) (hlen ▸ hacc) hin.1 hin.2⟩

/-- What `DEC_SIZE` can do. -/
theorem decSize_ended (s : State) : Ended .decSize s (decSize s) := by
  unfold decSize
  split
  · exact .rejected _ (by simp) (by simp) rfl
  · split
    · exact .rejected _ (by simp) (by simp) rfl
    · exact .done _ _ s.mem (padCount_le _ _) (decodedSize_lt s.srcLen.isLt) id (.inl ⟨rfl, rfl⟩)

/-- What a command can do: it always answers a next state, and it ends in one of the ways of `Ended`. -/
theorem exec_cases (i : Instr) (s : State) : ∃ t, exec i s = .next t ∧ Ended i s t := by
  cases i with
  | encBulk => exact ⟨_, rfl, encBulk_ended s⟩
  | encBound => exact ⟨_, rfl, encBound_ended s⟩
  | decBulk => exact ⟨_, rfl, decBulk_ended s⟩
  | decBound => exact ⟨_, rfl, decBound_ended s⟩
  | decSize => exact ⟨_, rfl, decSize_ended s⟩

theorem exec_ended {i : Instr} {s t : State} (h : exec i s = .next t) : Ended i s t := by
  obtain ⟨t', h', he⟩ := exec_cases i s
  rw [h] at h'
  exact Host.Outcome.next.inj h' ▸ he

end Sys2Proof.Machine
end

