-- ==== Sys2Proof/Laws/HostSequences.lean ====
section
/-! SUPPORT. What the host's register accesses and each pseudo-instruction do. -/

namespace Sys2Proof.Machine

/-- A write of a register other than `CMD` through the window. -/
theorem handle_wr {r : Reg} (hr : r ≠ .cmd) (v : Word) (s : State) :
    handle (wr r v) s = .next (answer .done (storeReg r v s)) := by
  cases r with
  | cmd => exact absurd rfl hr
  | _ => rfl

/-- A write of an encoded command to `CMD` runs it. -/
theorem handle_wr_cmd (i : Instr) (s : State) :
    handle (wr .cmd (encode i)) s = exec i (answer .done (storeReg .cmd (encode i) s)) := by
  cases i <;> rfl

/-- A read of a register through the window. -/
theorem handle_rd (r : Reg) (s : State) : handle (rd r) s = .next (answer (.data (readReg r s)) s) := by
  cases r <;> rfl

theorem perform_cons_next {e : Event} {es : List Event} {s t : State} (h : handle e s = .next t) :
    perform (e :: es) s = perform es t := by
  simp only [perform, h]

/-- The four operand writes of a pseudo-instruction, before the rest of it. -/
theorem perform_operands (S n D C : Word) (es : List Event) (s : State) :
    perform (wr .srcAddr S :: wr .srcLen n :: wr .dstAddr D :: wr .dstCap C :: es) s =
      perform es { s with srcAddr := S, srcLen := n, dstAddr := D, dstCap := C, response := .done } := by
  rw [perform_cons_next (handle_wr (by simp) _ _), perform_cons_next (handle_wr (by simp) _ _),
    perform_cons_next (handle_wr (by simp) _ _), perform_cons_next (handle_wr (by simp) _ _)]
  rfl

/-- The state after `b64.status`. -/
abbrev polled (t : State) : State := { t with response := .data t.errGroup }

/-- A command that answers `t`, and `b64.status` after it. -/
theorem perform_command {i : Instr} {s t : State} (h : exec i (answer .done (storeReg .cmd (encode i) s)) = .next t) :
    perform (wr .cmd (encode i) :: b64Status) s = .next (polled t) := by
  rw [perform_cons_next ((handle_wr_cmd i s).trans h), b64Status, perform_cons_next (handle_rd _ _),
    perform_cons_next (handle_rd _ _), perform_cons_next (handle_rd _ _)]
  rfl

/-- The state in which a pseudo-instruction runs its command. -/
abbrev ready (S n D C w : Word) (s : State) : State :=
  { s with srcAddr := S, srcLen := n, dstAddr := D, dstCap := C, cmd := w, response := .done }

theorem perform_encBulk (S n D C : Word) (s : State) :
    perform (b64EncBulk S n D C ++ b64Status) s = .next (polled (encBulk (ready S n D C (encode .encBulk) s))) :=
  (perform_operands S n D C _ s).trans (perform_command rfl)

theorem perform_encBound (S n D C : Word) (s : State) :
    perform (b64EncBound S n D C ++ b64Status) s = .next (polled (encBound (ready S n D C (encode .encBound) s))) :=
  (perform_operands S n D C _ s).trans (perform_command rfl)

theorem perform_decBulk (S n D C : Word) (s : State) :
    perform (b64DecBulk S n D C ++ b64Status) s = .next (polled (decBulk (ready S n D C (encode .decBulk) s))) :=
  (perform_operands S n D C _ s).trans (perform_command rfl)

theorem perform_decBound (S D C : Word) (s : State) :
    perform (b64DecBound S D C ++ b64Status) s = .next (polled (decBound (ready S 4 D C (encode .decBound) s))) :=
  (perform_operands S 4 D C _ s).trans (perform_command rfl)

theorem perform_decSize (S n : Word) (s : State) :
    perform (b64DecSize S n ++ b64Status) s =
      .next (polled (decSize (ready S n s.dstAddr s.dstCap (encode .decSize) s))) := by
  show perform (wr .srcAddr S :: wr .srcLen n :: wr .cmd (encode .decSize) :: b64Status) s = _
  rw [perform_cons_next (handle_wr (by simp) _ _), perform_cons_next (handle_wr (by simp) _ _)]
  exact perform_command rfl

/-- What a command of a sequence can lead to: the rest when it ended `OK`, its own outcome when it did not. -/
theorem commandThen_of_perform {es : List Event} {t : State} {next : State → SeqRun} {s : State}
    (h : perform (es ++ b64Status) s = .next t) :
    commandThen es next s =
      if codeField t.status = codeOk then next t
      else .next (⟨codeField t.status, reasonField t.status, t.result.toNat⟩, t) := by
  unfold commandThen
  rw [h]
  rfl

end Sys2Proof.Machine
end

