-- ==== Sys2Proof/Laws/PerInstr.lean ====
section
/-! SUPPORT. What holds of every command as syntax, one lemma per constructor. -/

namespace Sys2Proof.Laws

/-- The command word of `i` is legal: `RSVD` is 0, `OP` is the code of `i` and one of 1 to 5 (30_encoding.md R91, R94,
R97). -/
def EncodingLegal.Statement (i : Instr) : Prop :=
  CommandWord.legal (encode i) = true ∧ rsvdField (encode i) = 0 ∧ opField (encode i) = opcode i

theorem EncodingLegal.encBulk : EncodingLegal.Statement .encBulk := ⟨rfl, rfl, rfl⟩

theorem EncodingLegal.encBound : EncodingLegal.Statement .encBound := ⟨rfl, rfl, rfl⟩

theorem EncodingLegal.decBulk : EncodingLegal.Statement .decBulk := ⟨rfl, rfl, rfl⟩

theorem EncodingLegal.decBound : EncodingLegal.Statement .decBound := ⟨rfl, rfl, rfl⟩

theorem EncodingLegal.decSize : EncodingLegal.Statement .decSize := ⟨rfl, rfl, rfl⟩

end Sys2Proof.Laws
end

