-- ==== Sys2Proof/Laws/Results.lean ====
section
/-! SUPPORT. When each command succeeds and what it leaves then: the lemmas a proof cites instead of unfolding a command. -/

namespace Sys2Proof.Machine

/-- Part of a window that answers. -/
theorem Answers.sub {p : Platform} {base len a n : Nat} (h : Answers p base len) (h1 : base ≤ a)
    (h2 : a + n ≤ base + len) :
    Answers p a n := fun k hk => h.at_address (by omega) (by omega)

/-- An invalid argument leaves everything but the outcome registers as it was. -/
theorem rejectedAs_raise (r : Reason) (s : State) : RejectedAs s (raise (.invalidArgument r) s) r.code.toNat :=
  ⟨raise_outcome _ _ (by simp [Failure.group]), rfl, rfl, rfl, rfl, rfl, rfl, rfl, rfl, rfl, rfl⟩

/-- A failure after the destination checks leaves the destination window to free values. -/
theorem spoiledAs_raise {s : State} {out : Nat} {e : Failure} (he : e.reason = 0) (hg : e.group < 2^32) :
    SpoiledAs s (raise e (drawWindow out s)) out e.code.toNat e.group := by
  refine ⟨?_, ⟨rfl, rfl, rfl, rfl, rfl, rfl, rfl, rfl⟩, rfl, fun a ha => ?_⟩
  · have := raise_outcome e (drawWindow out s) hg
    rw [he] at this; exact this
  · simp only [byteAt, raise_mem, drawWindow_mem, read_drawBytes]
    rw [if_neg ha]

/-- A group of `ENC_BULK` reached with every earlier group written. -/
theorem encodeGroup_reached {s : State} {q : Nat} (hq : q = s.srcLen.toNat / 3) (hD : DstUsable (operands s) (4 * q))
    {j : Nat} (hj : j < q) {m' : Memory}
    (h1 : Answers s.platform (s.srcAddr.toNat + 3 * j) 3) (h2 : Answers s.platform (s.dstAddr.toNat + 4 * j) 4)
    (hs : SameButGroups s.dstAddr.toNat 4 0 j s.mem m') :
    ∃ m'', encodeGroup s.platform s.srcAddr.toNat s.dstAddr.toNat j m' = .ok m'' ∧
      GroupWritten s.dstAddr.toNat 4 j (fun k => (encBytes s.srcAddr.toNat j s.mem).getD k 0) m' m'' := by
  have hdis := hD.2.2.2
  simp only [operands_src, operands_len, operands_dst] at hdis
  have hsame : ∀ a, s.srcAddr.toNat ≤ a → a < s.srcAddr.toNat + s.srcLen.toNat →
      Memory.read m' a = Memory.read s.mem a := by
    intro a ha1 ha2
    exact hs a (by omega)
  have he : encBytes s.srcAddr.toNat j m' = encBytes s.srcAddr.toNat j s.mem := by
    simp only [encBytes]
    rw [hsame _ (by omega) (by omega), hsame _ (by omega) (by omega), hsame _ (by omega) (by omega)]
  rw [encodeGroup_eq, if_pos ⟨h1, h2⟩, he]
  exact ⟨_, rfl, groupWritten_writeSeq (w := 4) (bytes := encBytes s.srcAddr.toNat j s.mem) rfl m'⟩

/-- `ENC_BULK` on usable operands whose windows answer. -/
theorem encBulk_of_usable {s : State} (h : SrcUsable (operands s) .bulk3)
    (hD : DstUsable (operands s) (4 * (s.srcLen.toNat / 3)))
    (ha : Answers s.platform s.srcAddr.toNat s.srcLen.toNat)
    (hd : Answers s.platform s.dstAddr.toNat (4 * (s.srcLen.toNat / 3))) :
    ∃ m, encBulk s = finish (4 * (s.srcLen.toNat / 3)) 0 { s with mem := m } ∧
      SameButGroups s.dstAddr.toNat 4 0 (s.srcLen.toNat / 3) s.mem m ∧
      ∀ j k, j < s.srcLen.toNat / 3 → k < 4 →
          Memory.read m (s.dstAddr.toNat + 4 * j + k) = (encBytes s.srcAddr.toNat j s.mem).getD k 0 := by
  obtain ⟨m, hm, hsame, hout⟩ := forGroups_ok (body := encodeGroup s.platform s.srcAddr.toNat s.dstAddr.toNat)
    (dst := s.dstAddr.toNat) (w := 4) (m := s.mem) (count := s.srcLen.toNat / 3) (g := 0)
    (out := fun j k => (encBytes s.srcAddr.toNat j s.mem).getD k 0)
    (fun j m' _ hj hs => encodeGroup_reached rfl hD (by omega) (Answers.sub ha (by omega)
        (by omega)) (Answers.sub hd (by omega) (by omega)) hs)
  refine ⟨m, ?_, by simpa using hsame, fun j k hj hk => hout j k (by omega) (by omega) hk⟩
  have hp : encBulkPrepare s = .ok (4 * (s.srcLen.toNat / 3)) := checkArgs_eq_ok.mpr ⟨h, hD, rfl⟩
  simp only [encBulk, hp, operands_src, operands_dst, operands_len, hm]
  rfl

/-- `ENC_BULK` ends `OK` on nothing else. -/
theorem encBulk_usable {s : State} (hc : codeField (encBulk s).status = 1) :
    SrcUsable (operands s) .bulk3 ∧ DstUsable (operands s) (4 * (s.srcLen.toNat / 3)) ∧
    Answers s.platform s.srcAddr.toNat s.srcLen.toNat ∧
        Answers s.platform s.dstAddr.toNat (4 * (s.srcLen.toNat / 3)) := by
  unfold encBulk at hc
  cases hp : encBulkPrepare s with
  | error e =>
    obtain ⟨r, rfl⟩ := checkArgs_eq_error hp
    rw [hp] at hc; simp [Failure.code] at hc
  | ok out =>
    obtain ⟨hs, hd, rfl⟩ := checkArgs_eq_ok.mp hp
    rw [hp] at hc
    simp only at hc
    cases hr : forGroups (encodeGroup s.platform (operands s).src (operands s).dst)
        ((operands s).len / 3) 0 s.mem with
    | error e =>
      obtain ⟨j, m', -, -, hj⟩ := forGroups_error_cases hr
      rw [encodeGroup_eq] at hj
      split at hj
      · exact absurd hj (by simp)
      · rw [hr, ← Except.error.inj hj] at hc
        simp [conclude_error, Failure.code] at hc
    | ok m =>
      have hall : ∀ j, j < s.srcLen.toNat / 3 → Answers s.platform (s.srcAddr.toNat + 3 * j) 3 ∧
          Answers s.platform (s.dstAddr.toNat + 4 * j) 4 := by
        intro j hj
        by_contra hno
        classical
        have hex : ∃ j, j < s.srcLen.toNat / 3 ∧ ¬(Answers s.platform (s.srcAddr.toNat + 3 * j) 3 ∧
            Answers s.platform (s.dstAddr.toNat + 4 * j) 4) := ⟨j, hj, hno⟩
        have hf := Nat.find_spec hex
        have hmin : ∀ i, i < Nat.find hex → Answers s.platform (s.srcAddr.toNat + 3 * i) 3 ∧
            Answers s.platform (s.dstAddr.toNat + 4 * i) 4 := by
          intro i hi
          have := Nat.find_min hex hi
          by_contra hc'
          exact this ⟨by omega, hc'⟩
        have := forGroups_error (body := encodeGroup s.platform s.srcAddr.toNat s.dstAddr.toNat)
          (dst := s.dstAddr.toNat) (w := 4) (m := s.mem) (count := s.srcLen.toNat / 3) (g := 0) (f := Nat.find hex)
          (out := fun j k => (encBytes s.srcAddr.toNat j s.mem).getD k 0) (e := .busError (Nat.find hex))
              (by omega) (by omega)
          (fun j m' _ hj hs => encodeGroup_reached rfl hd (by omega) (hmin j hj).1 (hmin j hj).2 hs)
          (fun m' _ => by rw [encodeGroup_eq, if_neg hf.2])
        simp only [operands_src, operands_dst, operands_len] at hr
        rw [this] at hr
        exact absurd hr (by simp)
      refine ⟨hs, hd, fun k hk => ?_, fun k hk => ?_⟩
      · have h3 := hs.2.1
        simp only [LenAccepted, operands_len] at h3
        exact ((hall (k / 3) (by omega)).1).at_address (by omega) (by omega)
      · exact ((hall (k / 4) (by omega)).2).at_address (by omega) (by omega)

theorem enc3_getD (b0 b1 b2 : Byte) {k : Nat} (hk : k < 4) : ∃ x, (enc3 b0 b1 b2).getD k 0 = T x := by
  obtain rfl | rfl | rfl | rfl : k = 0 ∨ k = 1 ∨ k = 2 ∨ k = 3 := by omega
  all_goals exact ⟨_, rfl⟩

/-- `ENC_BOUND` past its checks. -/
theorem encBound_of_usable {s : State} (h : SrcUsable (operands s) .bound3) (hD : DstUsable (operands s) 4) :
    encBound s = conclude 4 (3 - s.srcLen.toNat) (encBoundRun s) s := by
  have hp : encBoundPrepare s = .ok 4 := checkArgs_eq_ok.mpr ⟨h, hD, rfl⟩
  simp only [encBound, hp, operands_len]

theorem boundChars_getD {n : Nat} (hn : n = 1 ∨ n = 2) (b0 b1 : Byte) {k : Nat} (hk : k < 4) :
    (boundChars n b0 b1).getD k 0 = if k ≤ n then (enc3 b0 b1 0).getD k 0 else pad := by
  obtain rfl | rfl := hn <;> obtain rfl | rfl | rfl | rfl : k = 0 ∨ k = 1 ∨ k = 2 ∨ k = 3 := by omega
  all_goals rfl

/-- `ENC_BOUND` ends `OK` on nothing else than usable operands whose windows answer. -/
theorem encBound_usable {s : State} (hc : codeField (encBound s).status = 1) :
    SrcUsable (operands s) .bound3 ∧ DstUsable (operands s) 4 ∧
    Answers s.platform s.srcAddr.toNat s.srcLen.toNat ∧ Answers s.platform s.dstAddr.toNat 4 := by
  unfold encBound at hc
  cases hp : encBoundPrepare s with
  | error e =>
    obtain ⟨r, rfl⟩ := checkArgs_eq_error hp
    rw [hp] at hc; simp [Failure.code] at hc
  | ok out =>
    obtain ⟨hs, hd, rfl⟩ := checkArgs_eq_ok.mp hp
    have hn : s.srcLen.toNat = 1 ∨ s.srcLen.toNat = 2 := hs.2.1
    rw [hp] at hc
    simp only [encBoundRun, operands_src, operands_dst, operands_len, encodeTail_eq hn] at hc
    by_cases hacc : Answers s.platform s.srcAddr.toNat s.srcLen.toNat ∧ Answers s.platform s.dstAddr.toNat 4
    · exact ⟨hs, hd, hacc.1, hacc.2⟩
    · rw [if_neg hacc] at hc
      simp [conclude_error, Failure.code] at hc

theorem alphaIndex_of_isAlpha_four {c0 c1 c2 c3 : Byte} (h0 : isAlpha c0 = true) (h1 : isAlpha c1 = true)
    (h2 : isAlpha c2 = true) (h3 : isAlpha c3 = true) :
    ∃ i0 i1 i2 i3, alphaIndex c0 = some i0 ∧ alphaIndex c1 = some i1 ∧ alphaIndex c2 = some i2 ∧
        alphaIndex c3 = some i3 := by
  simp only [isAlpha, Option.isSome_iff_exists] at *
  obtain ⟨i0, h0⟩ := h0; obtain ⟨i1, h1⟩ := h1; obtain ⟨i2, h2⟩ := h2; obtain ⟨i3, h3⟩ := h3
  exact ⟨i0, i1, i2, i3, h0, h1, h2, h3⟩

/-- A group of `DEC_BULK` reached with every earlier group written. -/
theorem decodeGroup_reached {s : State} {q : Nat} (hq : q = s.srcLen.toNat / 4) (hD : DstUsable (operands s) (3 * q))
    {j : Nat} (hj : j < q) {m' : Memory}
    (h1 : Answers s.platform (s.srcAddr.toNat + 4 * j) 4) (h2 : Answers s.platform (s.dstAddr.toNat + 3 * j) 3)
    (hb : (decBytes s.srcAddr.toNat j s.mem).isSome)
    (hs : SameButGroups s.dstAddr.toNat 3 0 j s.mem m') :
    ∃ m'', decodeGroup s.platform s.srcAddr.toNat s.dstAddr.toNat j m' = .ok m'' ∧
      GroupWritten s.dstAddr.toNat 3 j (fun k => ((decBytes s.srcAddr.toNat j s.mem).getD []).getD k 0) m' m'' := by
  have hdis := hD.2.2.2
  simp only [operands_src, operands_len, operands_dst] at hdis
  have hsame : ∀ a, s.srcAddr.toNat ≤ a → a < s.srcAddr.toNat + s.srcLen.toNat →
      Memory.read m' a = Memory.read s.mem a := by
    intro a ha1 ha2
    exact hs a (by omega)
  have he : decBytes s.srcAddr.toNat j m' = decBytes s.srcAddr.toNat j s.mem := by
    simp only [decBytes]
    rw [hsame _ (by omega) (by omega), hsame _ (by omega) (by omega), hsame _ (by omega) (by omega),
        hsame _ (by omega) (by omega)]
  obtain ⟨bytes, hb⟩ := Option.isSome_iff_exists.mp hb
  rw [decodeGroup_valid h1 (he.trans hb), if_pos h2, hb]
  exact ⟨_, rfl, groupWritten_writeSeq (w := 3) (fullBytes_length hb) m'⟩

theorem source_kept_by_decodeGroups {s : State} {q j : Nat} (hq : q = s.srcLen.toNat / 4)
    (hD : DstUsable (operands s) (3 * q))
    (hj : j ≤ q) {m' : Memory} (hs : SameButGroups s.dstAddr.toNat 3 0 j s.mem m') :
    ∀ a, s.srcAddr.toNat ≤ a → a < s.srcAddr.toNat + s.srcLen.toNat → Memory.read m' a = Memory.read s.mem a := by
  intro a ha1 ha2
  have hdis := hD.2.2.2
  simp only [operands_src, operands_len, operands_dst] at hdis
  exact hs a (by omega)

/-- The bytes of a group of alphabet characters. -/
theorem decBytes_of_isAlpha {s : State} {j n : Nat} (h : ∀ k, k < n →
    isAlpha (byteAt s (s.srcAddr.toNat + k)) = true) (hj : 4 * j + 4 ≤ n) :
    ∃ i0 i1 i2 i3, alphaIndex (byteAt s (s.srcAddr.toNat + 4 * j)) = some i0 ∧
        alphaIndex (byteAt s (s.srcAddr.toNat + 4 * j + 1)) = some i1 ∧
        alphaIndex (byteAt s (s.srcAddr.toNat + 4 * j + 2)) = some i2 ∧
        alphaIndex (byteAt s (s.srcAddr.toNat + 4 * j + 3)) = some i3 ∧
     decBytes s.srcAddr.toNat j s.mem = some (dec4 i0 i1 i2 i3) := by
  obtain ⟨i0, i1, i2, i3, h0, h1, h2, h3⟩ := alphaIndex_of_isAlpha_four (h (4*j) (by omega)) (h (4*j+1)
      (by omega)) (h (4*j+2) (by omega)) (h (4*j+3) (by omega))
  simp only [← Nat.add_assoc] at h0 h1 h2 h3
  exact ⟨i0, i1, i2, i3, h0, h1, h2, h3, fullBytes_eq_some.mpr ⟨i0, i1, i2, i3, h0, h1, h2, h3, rfl⟩⟩

/-- `DEC_BULK` on usable operands whose windows answer and whose characters are all of the alphabet. -/
theorem decBulk_of_usable {s : State} (h : SrcUsable (operands s) .bulk4)
    (hD : DstUsable (operands s) (3 * (s.srcLen.toNat / 4)))
    (ha : Answers s.platform s.srcAddr.toNat s.srcLen.toNat)
    (hd : Answers s.platform s.dstAddr.toNat (3 * (s.srcLen.toNat / 4)))
    (hc : ∀ k, k < s.srcLen.toNat → isAlpha (byteAt s (s.srcAddr.toNat + k)) = true) :
    ∃ m, decBulk s = finish (3 * (s.srcLen.toNat / 4)) 0 { s with mem := m } ∧
      SameButGroups s.dstAddr.toNat 3 0 (s.srcLen.toNat / 4) s.mem m ∧
      ∀ j k, j < s.srcLen.toNat / 4 → k < 3 →
          Memory.read m (s.dstAddr.toNat + 3 * j + k) = ((decBytes s.srcAddr.toNat j s.mem).getD []).getD k 0 := by
  have hl := h.2.1
  simp only [LenAccepted, operands_len] at hl
  obtain ⟨m, hm, hsame, hout⟩ := forGroups_ok (body := decodeGroup s.platform s.srcAddr.toNat s.dstAddr.toNat)
    (dst := s.dstAddr.toNat) (w := 3) (m := s.mem) (count := s.srcLen.toNat / 4) (g := 0)
    (out := fun j k => ((decBytes s.srcAddr.toNat j s.mem).getD []).getD k 0)
    (fun j m' _ hj hs => decodeGroup_reached rfl hD (by omega) (Answers.sub ha (by omega)
        (by omega)) (Answers.sub hd (by omega) (by omega)) (by
      obtain ⟨_, _, _, _, _, _, _, _, hx⟩ := decBytes_of_isAlpha (j := j) hc (by omega)
      rw [hx]; rfl) hs)
  refine ⟨m, ?_, by simpa using hsame, fun j k hj hk => hout j k (by omega) (by omega) hk⟩
  have hp : decBulkPrepare s = .ok (3 * (s.srcLen.toNat / 4)) := checkArgs_eq_ok.mpr ⟨h, hD, rfl⟩
  simp only [decBulk, hp, operands_src, operands_dst, operands_len, hm]
  rfl

/-- `DEC_BULK` whose first failing group is `f`. -/
theorem decBulk_of_first_failure {s : State} {f : Nat} {e : Failure} (h : SrcUsable (operands s) .bulk4)
    (hD : DstUsable (operands s) (3 * (s.srcLen.toNat / 4)))
    (hf : f < s.srcLen.toNat / 4) (ha : Answers s.platform s.srcAddr.toNat (4 * f))
        (hd : Answers s.platform s.dstAddr.toNat (3 * f))
    (hc : ∀ k, k < 4 * f → isAlpha (byteAt s (s.srcAddr.toNat + k)) = true)
    (hfail : ∀ m', SameButGroups s.dstAddr.toNat 3 0 f s.mem m' →
        decodeGroup s.platform s.srcAddr.toNat s.dstAddr.toNat f m' = .error e) :
    decBulk s = raise e (drawWindow (3 * (s.srcLen.toNat / 4)) s) := by
  have := forGroups_error (body := decodeGroup s.platform s.srcAddr.toNat s.dstAddr.toNat)
    (dst := s.dstAddr.toNat) (w := 3) (m := s.mem) (count := s.srcLen.toNat / 4) (g := 0) (f := f)
    (out := fun j k => ((decBytes s.srcAddr.toNat j s.mem).getD []).getD k 0) (e := e) (by omega) (by omega)
    (fun j m' _ hj hs => decodeGroup_reached rfl hD (by omega) (Answers.sub ha (by omega)
        (by omega)) (Answers.sub hd (by omega) (by omega)) (by
      obtain ⟨_, _, _, _, _, _, _, _, hx⟩ := decBytes_of_isAlpha (j := j) hc (by omega)
      rw [hx]; rfl) hs) hfail
  have hp : decBulkPrepare s = .ok (3 * (s.srcLen.toNat / 4)) := checkArgs_eq_ok.mpr ⟨h, hD, rfl⟩
  simp only [decBulk, hp, operands_src, operands_dst, operands_len, this, conclude_error]

theorem decBytes_eq_none {s : State} {f : Nat} (hk : ∃ k, k < 4 ∧
    isAlpha (byteAt s (s.srcAddr.toNat + 4 * f + k)) = false) :
    decBytes s.srcAddr.toNat f s.mem = none := by
  obtain ⟨k, hk, hi⟩ := hk
  rw [isAlpha, Option.isSome_eq_false_iff, Option.isNone_iff_eq_none] at hi
  cases hb : decBytes s.srcAddr.toNat f s.mem with
  | none => rfl
  | some bytes =>
    obtain ⟨i0, i1, i2, i3, h0, h1, h2, h3, -⟩ := fullBytes_eq_some.mp hb
    obtain rfl | rfl | rfl | rfl : k = 0 ∨ k = 1 ∨ k = 2 ∨ k = 3 := by omega
    · rw [Nat.add_zero] at hi; simp [byteAt, h0] at hi
    · simp [byteAt, h1] at hi
    · simp [byteAt, h2] at hi
    · simp [byteAt, h3] at hi

theorem decBytes_reached {s : State} {f : Nat} {m' : Memory} (hD : DstUsable (operands s) (3 * (s.srcLen.toNat / 4)))
    (hf : f < s.srcLen.toNat / 4) (hs : SameButGroups s.dstAddr.toNat 3 0 f s.mem m') :
    decBytes s.srcAddr.toNat f m' = decBytes s.srcAddr.toNat f s.mem := by
  have hsame := source_kept_by_decodeGroups rfl hD (Nat.le_of_lt hf) hs
  simp only [decBytes]
  rw [hsame _ (by omega) (by omega), hsame _ (by omega) (by omega), hsame _ (by omega) (by omega),
      hsame _ (by omega) (by omega)]

/-- `DEC_BOUND` past its destination checks. -/
theorem decBound_of_usable {s : State} (h : SrcUsable (operands s) .bound4)
    (ha : Answers s.platform s.srcAddr.toNat 4)
    (hD : DstUsable (operands s) (3 - padCount (byteAt s (s.srcAddr.toNat + 2)) (byteAt s (s.srcAddr.toNat + 3)))) :
    decBound s = conclude (3 - padCount (byteAt s (s.srcAddr.toNat + 2)) (byteAt s (s.srcAddr.toNat + 3)))
      (padCount (byteAt s (s.srcAddr.toNat + 2)) (byteAt s (s.srcAddr.toNat + 3)))
      (decBoundRun s ⟨byteAt s s.srcAddr.toNat, byteAt s (s.srcAddr.toNat + 1), byteAt s (s.srcAddr.toNat + 2),
        byteAt s (s.srcAddr.toNat + 3),
        3 - padCount (byteAt s (s.srcAddr.toNat + 2)) (byteAt s (s.srcAddr.toNat + 3))⟩) s := by
  have hp : decBoundPrepare s = .ok ⟨byteAt s s.srcAddr.toNat, byteAt s (s.srcAddr.toNat + 1),
      byteAt s (s.srcAddr.toNat + 2), byteAt s (s.srcAddr.toNat + 3),
      3 - padCount (byteAt s (s.srcAddr.toNat + 2)) (byteAt s (s.srcAddr.toNat + 3))⟩ :=
    decBoundPrepare_eq_ok.mpr ⟨h, ha, rfl, rfl, hD⟩
  simp only [decBound, hp]

/-- The bytes of a final group exist exactly when `TailValid` holds. -/
theorem tailBytes_isSome {c0 c1 c2 c3 : Byte} : (tailBytes c0 c1 c2 c3).isSome = true ↔ TailValid c0 c1 c2 c3
    (padCount c2 c3) := by
  have hA : ∀ c : Byte, isAlpha c = true ↔ (alphaIndex c).isSome = true := fun c => Iff.rfl
  unfold tailBytes TailValid
  simp only [hA]
  cases h0 : alphaIndex c0 <;> cases h1 : alphaIndex c1 <;> simp
  by_cases h3 : c3 = pad
  · subst h3
    by_cases h2 : c2 = pad
    · subst h2; simp [padCount]
    · rw [padCount_one h2]
      cases hh : alphaIndex c2 <;> simp
  · rw [padCount_of_ne h3]
    cases hh : alphaIndex c2 <;> cases hh3 : alphaIndex c3 <;> simp

theorem padCount_of_tailValid {c0 c1 c2 c3 : Byte} {p : Nat} (h : TailValid c0 c1 c2 c3 p) : p = padCount c2 c3 := by
  obtain ⟨rfl, _, _, _, h3⟩ | ⟨rfl, _, _, h2, rfl⟩ | ⟨rfl, _, _, rfl, rfl⟩ := h
  · exact (padCount_of_ne (ne_pad_of_isAlpha h3)).symm
  · exact (padCount_one (ne_pad_of_isAlpha h2)).symm
  · rfl

/-- The byte formulas on naturals. -/
theorem decB_toNat : (∀ a b : Sextet, (decB0 a b).toNat = (a.toNat <<< 2 ||| b.toNat >>> 4)) ∧ (∀ a b : Sextet,
    (decB1 a b).toNat = ((a.toNat &&& 0x0F) <<< 4 ||| b.toNat >>> 2)) ∧ (∀ a b : Sextet,
    (decB2 a b).toNat = ((a.toNat &&& 0x03) <<< 6 ||| b.toNat)) := by
  refine ⟨?_, ?_, ?_⟩ <;> decide +kernel

/-- The bytes of a final group. -/
theorem tailBytes_getD {c0 c1 c2 c3 : Byte} {bytes : List Byte} (h : tailBytes c0 c1 c2 c3 = some bytes) :
    ∃ i0 i1, alphaIndex c0 = some i0 ∧ alphaIndex c1 = some i1 ∧ bytes.getD 0 0 = decB0 i0 i1 ∧
     (padCount c2 c3 ≤ 1 → ∃ i2, alphaIndex c2 = some i2 ∧ bytes.getD 1 0 = decB1 i1 i2 ∧
       (padCount c2 c3 = 0 → ∃ i3, alphaIndex c3 = some i3 ∧ bytes.getD 2 0 = decB2 i2 i3)) := by
  have hle := padCount_le c2 c3
  unfold tailBytes at h
  split at h
  · next i0 i1 h0 h1 =>
    refine ⟨i0, i1, h0, h1, ?_⟩
    split at h
    · next hp => rw [← Option.some.inj h]; exact ⟨rfl, fun h => by omega⟩
    · next hp =>
      split at h
      · exact absurd h (by simp)
      · next i2 h2 =>
        split at h
        · next hp1 => rw [← Option.some.inj h]; exact ⟨rfl, fun _ => ⟨i2, h2, rfl, fun h => by omega⟩⟩
        · split at h
          · exact absurd h (by simp)
          · next i3 h3 => rw [← Option.some.inj h]; exact ⟨rfl, fun _ => ⟨i2, h2, rfl, fun _ => ⟨i3, h3, rfl⟩⟩⟩
  · exact absurd h (by simp)

/-- `DEC_BULK` ends `OK` on nothing else. -/
theorem decBulk_usable {s : State} (hc : codeField (decBulk s).status = 1) :
    SrcUsable (operands s) .bulk4 ∧ DstUsable (operands s) (3 * (s.srcLen.toNat / 4)) ∧
    Answers s.platform s.srcAddr.toNat s.srcLen.toNat ∧
        Answers s.platform s.dstAddr.toNat (3 * (s.srcLen.toNat / 4)) ∧
    (∀ k, k < s.srcLen.toNat → isAlpha (byteAt s (s.srcAddr.toNat + k)) = true) := by
  unfold decBulk at hc
  cases hp : decBulkPrepare s with
  | error e =>
    obtain ⟨r, rfl⟩ := checkArgs_eq_error hp
    rw [hp] at hc; simp [Failure.code] at hc
  | ok out =>
    obtain ⟨hs, hd, rfl⟩ := checkArgs_eq_ok.mp hp
    rw [hp] at hc
    simp only at hc
    cases hr : forGroups (decodeGroup s.platform (operands s).src (operands s).dst)
        ((operands s).len / 4) 0 s.mem with
    | error e =>
      obtain ⟨j, m', -, -, hj⟩ := forGroups_error_cases hr
      obtain rfl | rfl := decodeGroup_eq_error hj
      · rw [hr] at hc
        simp [conclude_error, Failure.code] at hc
      · rw [hr] at hc
        simp [conclude_error, Failure.code] at hc
    | ok m =>
      simp only [operands_src, operands_dst, operands_len] at hr
      have hall : ∀ j, j < s.srcLen.toNat / 4 → Answers s.platform (s.srcAddr.toNat + 4 * j) 4 ∧
          Answers s.platform (s.dstAddr.toNat + 3 * j) 3 ∧ (decBytes s.srcAddr.toNat j s.mem).isSome := by
        intro j hj
        by_contra hno
        classical
        have hex : ∃ j, j < s.srcLen.toNat / 4 ∧ ¬(Answers s.platform (s.srcAddr.toNat + 4 * j) 4 ∧
            Answers s.platform (s.dstAddr.toNat + 3 * j) 3 ∧ (decBytes s.srcAddr.toNat j s.mem).isSome) := ⟨j, hj,
            hno⟩
        obtain ⟨hf, hf2⟩ := Nat.find_spec hex
        have hmin : ∀ i, i < Nat.find hex → (Answers s.platform (s.srcAddr.toNat + 4 * i) 4 ∧
            Answers s.platform (s.dstAddr.toNat + 3 * i) 3 ∧ (decBytes s.srcAddr.toNat i s.mem).isSome) := by
          intro i hi
          have := Nat.find_min hex hi
          by_contra hc'
          exact this ⟨by omega, hc'⟩
        obtain ⟨e, he⟩ : ∃ e, ∀ m', SameButGroups s.dstAddr.toNat 3 0 (Nat.find hex) s.mem m' →
            decodeGroup s.platform s.srcAddr.toNat s.dstAddr.toNat (Nat.find hex) m' = .error e := by
          by_cases h1 : Answers s.platform (s.srcAddr.toNat + 4 * Nat.find hex) 4
          · cases hb : decBytes s.srcAddr.toNat (Nat.find hex) s.mem with
            | none => exact ⟨_, fun m' hs => decodeGroup_malformed h1 ((decBytes_reached hd hf hs).trans hb)⟩
            | some b =>
              refine ⟨.busError (Nat.find hex), fun m' hs => ?_⟩
              rw [decodeGroup_valid h1 ((decBytes_reached hd hf hs).trans hb), if_neg]
              exact fun h2 => hf2 ⟨h1, h2, by rw [hb]; rfl⟩
          · exact ⟨_, fun m' _ => decodeGroup_unread h1⟩
        have := forGroups_error (body := decodeGroup s.platform s.srcAddr.toNat s.dstAddr.toNat)
          (dst := s.dstAddr.toNat) (w := 3) (m := s.mem) (count := s.srcLen.toNat / 4) (g := 0) (f := Nat.find hex)
          (out := fun j k => ((decBytes s.srcAddr.toNat j s.mem).getD []).getD k 0) (e := e) (by omega) (by omega)
          (fun j m' _ hj hs => decodeGroup_reached rfl hd (by omega)
              (hmin j hj).1 (hmin j hj).2.1 (hmin j hj).2.2 hs) he
        rw [this] at hr
        exact absurd hr (by simp)
      have h4 := hs.2.1
      simp only [LenAccepted, operands_len] at h4
      refine ⟨hs, hd, fun k hk => ?_, fun k hk => ?_, fun k hk => ?_⟩
      · exact ((hall (k / 4) (by omega)).1).at_address (by omega) (by omega)
      · exact ((hall (k / 3) (by omega)).2.1).at_address (by omega) (by omega)
      · obtain ⟨b, hb⟩ := Option.isSome_iff_exists.mp (hall (k / 4) (by omega)).2.2
        obtain ⟨i0, i1, i2, i3, h0, h1, h2, h3, -⟩ := fullBytes_eq_some.mp hb
        obtain h | h | h | h : k = 4 * (k/4) ∨ k = 4 * (k/4) + 1 ∨ k = 4 * (k/4) + 2 ∨ k = 4 * (k/4) + 3 := by omega
        all_goals
          rw [h]; simp only [isAlpha, byteAt, ← Nat.add_assoc, h0, h1, h2, h3]; rfl

/-- `DEC_BOUND` ends `OK` on nothing else. -/
theorem decBound_usable {s : State} (hc : codeField (decBound s).status = 1) :
    SrcUsable (operands s) .bound4 ∧ Answers s.platform s.srcAddr.toNat 4 ∧
    DstUsable (operands s) (3 - padCount (byteAt s (s.srcAddr.toNat + 2)) (byteAt s (s.srcAddr.toNat + 3))) ∧
    Answers s.platform s.dstAddr.toNat (3 - padCount (byteAt s (s.srcAddr.toNat + 2))
        (byteAt s (s.srcAddr.toNat + 3))) ∧
    TailValid (byteAt s s.srcAddr.toNat) (byteAt s (s.srcAddr.toNat + 1)) (byteAt s (s.srcAddr.toNat + 2))
        (byteAt s (s.srcAddr.toNat + 3))
      (padCount (byteAt s (s.srcAddr.toNat + 2)) (byteAt s (s.srcAddr.toNat + 3))) := by
  cases hp : decBoundPrepare s with
  | error e =>
    simp only [decBound, hp] at hc
    obtain ⟨r, rfl⟩ | rfl := decBoundPrepare_eq_error hp <;> simp [Failure.code] at hc
  | ok t =>
    obtain ⟨h1, h2, c, d, h3⟩ := decBoundPrepare_eq_ok.mp hp
    simp only [Prod.mk.injEq] at c
    obtain ⟨c0, c1, c2, c3⟩ := c
    rw [d, c2, c3] at h3
    refine ⟨h1, h2, h3, ?_⟩
    rw [decBound_of_usable h1 h2 h3] at hc
    simp only [decBoundRun, operands_dst] at hc
    cases hb : tailBytes (byteAt s s.srcAddr.toNat) (byteAt s (s.srcAddr.toNat + 1))
        (byteAt s (s.srcAddr.toNat + 2)) (byteAt s (s.srcAddr.toNat + 3)) with
    | none => rw [hb] at hc; simp [conclude_error, Failure.code] at hc
    | some b =>
      refine ⟨?_, tailBytes_isSome.mp (by rw [hb]; rfl)⟩
      rw [hb] at hc
      simp only at hc
      by_contra hn
      rw [memWriteSeq_of_not_answers (by rw [tailBytes_length hb]; exact hn)] at hc
      simp [conclude_error, Failure.code] at hc

/-- `DEC_SIZE` ends `OK` on nothing else. -/
theorem decSize_usable {s : State} (hc : codeField (decSize s).status = 1) : SrcUsable (operands s) .size4 ∧
    Platform.accessible s.platform (s.srcAddr.toNat + s.srcLen.toNat - 2) = true ∧
    Platform.accessible s.platform (s.srcAddr.toNat + s.srcLen.toNat - 1) = true := by
  unfold decSize at hc
  cases hs : checkSrc (operands s) .size4 with
  | some r => rw [hs] at hc; simp [Failure.code] at hc
  | none =>
    rw [hs] at hc; simp only at hc
    refine ⟨checkSrc_eq_none.mp hs, ?_⟩
    cases hr : readLastTwo s with
    | none => rw [hr] at hc; simp [Failure.code] at hc
    | some ab =>
      obtain ⟨a, b⟩ := ab
      have := readLastTwo_eq_some.mp hr
      exact ⟨this.1, this.2.1⟩

theorem Ended.sameInputs {i : Instr} {s t : State} (h : Ended i s t) : SameInputs s t := by
  cases h <;> exact ⟨rfl, rfl, rfl, rfl, rfl, rfl, rfl, rfl⟩

/-- A command records one of the outcomes 1 to 5. -/
theorem Ended.code {i : Instr} {s t : State} (h : Ended i s t) : 1 ≤ (codeField t.status).toNat ∧
    (codeField t.status).toNat ≤ 5 := by
  cases h with
  | rejected e => cases e <;> simp [Failure.code]
  | done => simp [codeOk]
  | spoiled out g e hw he => obtain rfl | rfl := he <;> simp [Failure.code]

theorem word_toNat {n : Nat} (h : n < 2^32) : (word n).toNat = n := by
  unfold word; rw [BitVec.toNat_ofNat, Nat.mod_eq_of_lt h]

theorem codeField_of_outcomeIs {t : State} {p r g : Nat} (h : OutcomeIs t p 0 1 r g) : codeField t.status = 1 := by
  apply BitVec.eq_of_toNat_eq
  simp only [codeField, BitVec.extractLsb'_toNat, h.1]
  simp only [Nat.shiftRight_zero]
  show _ = 1
  omega

theorem OutcomeLegal.congr {s t : State} (h : OutcomeLegal s) (h1 : t.status = s.status)
    (h2 : t.result = s.result) (h3 : t.errGroup = s.errGroup) : OutcomeLegal t := by
  obtain ⟨a,b,c,d,e,f,g,i⟩ := h
  constructor <;> simp only [h1, h2, h3] <;> assumption

theorem state_ext_of_sameInputs {t u : State} (h : SameInputs t u) (hm : u.mem = t.mem)
    (hd : u.draws = t.draws) (h1 : u.status = t.status) (h2 : u.result = t.result)
    (h3 : u.errGroup = t.errGroup) : u = t := by
  obtain ⟨a, b, c, d, e, f, g, i⟩ := h
  cases t; cases u; simp_all

end Sys2Proof.Machine
end

