-- ==== Sys2Proof/Laws/Transforms.lean ====
section
/-! SUPPORT. The bit formulas of `Enc3` and `Dec4` as quotients and remainders of natural numbers. -/

namespace Sys2Proof.Machine

theorem and_three (x : Nat) : x &&& 3 = x % 4 := Nat.and_two_pow_sub_one_eq_mod x 2

theorem and_fifteen (x : Nat) : x &&& 15 = x % 16 := Nat.and_two_pow_sub_one_eq_mod x 4

theorem and_sixtyThree (x : Nat) : x &&& 63 = x % 64 := Nat.and_two_pow_sub_one_eq_mod x 6

theorem shiftLeft_or_of_lt {a b i : Nat} (h : b < 2 ^ i) : (a <<< i ||| b) = a * 2 ^ i + b := by
  rw [← Nat.shiftLeft_add_eq_or_of_lt h, Nat.shiftLeft_eq]

theorem sextet1_nat {x y : Nat} (hy : y < 256) : ((x &&& 3) <<< 4 ||| y >>> 4) = (x % 4) * 16 + y / 16 := by
  rw [shiftLeft_or_of_lt (by rw [Nat.shiftRight_eq_div_pow]; omega), and_three, Nat.shiftRight_eq_div_pow]; norm_num

theorem sextet2_nat {x y : Nat} (hy : y < 256) : ((x &&& 15) <<< 2 ||| y >>> 6) = (x % 16) * 4 + y / 64 := by
  rw [shiftLeft_or_of_lt (by rw [Nat.shiftRight_eq_div_pow]; omega), and_fifteen, Nat.shiftRight_eq_div_pow]; norm_num

theorem byte0_nat {x y : Nat} (hy : y < 64) : (x <<< 2 ||| y >>> 4) = x * 4 + y / 16 := by
  rw [shiftLeft_or_of_lt (by rw [Nat.shiftRight_eq_div_pow]; omega), Nat.shiftRight_eq_div_pow]; norm_num

theorem byte1_nat {x y : Nat} (hy : y < 64) : ((x &&& 15) <<< 4 ||| y >>> 2) = (x % 16) * 16 + y / 4 := by
  rw [shiftLeft_or_of_lt (by rw [Nat.shiftRight_eq_div_pow]; omega), and_fifteen, Nat.shiftRight_eq_div_pow]; norm_num

theorem byte2_nat {x y : Nat} (hy : y < 64) : ((x &&& 3) <<< 6 ||| y) = (x % 4) * 64 + y := by
  rw [shiftLeft_or_of_lt (by omega), and_three]; norm_num

theorem encS0_toNat (b : Byte) : (encS0 b).toNat = b.toNat / 4 := by
  have := b.isLt
  simp only [encS0, BitVec.toNat_setWidth, BitVec.toNat_ushiftRight, Nat.shiftRight_eq_div_pow]; omega

theorem encS1_toNat (b c : Byte) : (encS1 b c).toNat = (b.toNat % 4) * 16 + c.toNat / 16 := by
  have h := b.isLt
  have h' := c.isLt
  simp only [encS1, BitVec.toNat_setWidth, BitVec.toNat_or, BitVec.toNat_shiftLeft, BitVec.toNat_and, BitVec.toNat_ushiftRight]
  have : BitVec.toNat (0x03 : Byte) = 3 := rfl
  rw [this, Nat.mod_eq_of_lt (a := (b.toNat &&& 3) <<< 4) (by rw [and_three, Nat.shiftLeft_eq]; omega), sextet1_nat h']; omega

theorem encS2_toNat (b c : Byte) : (encS2 b c).toNat = (b.toNat % 16) * 4 + c.toNat / 64 := by
  have h := b.isLt
  have h' := c.isLt
  simp only [encS2, BitVec.toNat_setWidth, BitVec.toNat_or, BitVec.toNat_shiftLeft, BitVec.toNat_and, BitVec.toNat_ushiftRight]
  have : BitVec.toNat (0x0F : Byte) = 15 := rfl
  rw [this, Nat.mod_eq_of_lt (a := (b.toNat &&& 15) <<< 2) (by rw [and_fifteen, Nat.shiftLeft_eq]; omega), sextet2_nat h']; omega

theorem encS3_toNat (b : Byte) : (encS3 b).toNat = b.toNat % 64 := by
  have h := b.isLt
  simp only [encS3, BitVec.toNat_setWidth, BitVec.toNat_and]
  have : BitVec.toNat (0x3F : Byte) = 63 := rfl
  rw [this, and_sixtyThree]; omega

theorem append_three_toNat (b0 b1 b2 : Byte) : (b0 ++ b1 ++ b2).toNat = b0.toNat * 65536 + b1.toNat * 256 + b2.toNat := by
  have h := b1.isLt
  have h' := b2.isLt
  rw [BitVec.toNat_append, shiftLeft_or_of_lt h', BitVec.toNat_append, shiftLeft_or_of_lt h]; omega

theorem append_four_toNat (b0 b1 b2 b3 : Sextet) : (b0 ++ b1 ++ b2 ++ b3).toNat = b0.toNat * 262144 + b1.toNat * 4096 + b2.toNat * 64 + b3.toNat := by
  have h := b1.isLt
  have h' := b2.isLt
  have h'' := b3.isLt
  rw [BitVec.toNat_append, shiftLeft_or_of_lt h'', BitVec.toNat_append, shiftLeft_or_of_lt h', BitVec.toNat_append, shiftLeft_or_of_lt h]; omega

theorem decB0_nat (i j : Sextet) : (decB0 i j).toNat = i.toNat * 4 + j.toNat / 16 := by
  have h := i.isLt
  have h' := j.isLt
  simp only [decB0, BitVec.toNat_setWidth, BitVec.toNat_or, BitVec.toNat_shiftLeft, BitVec.toNat_ushiftRight]
  rw [Nat.mod_eq_of_lt (a := i.toNat) (by omega), Nat.mod_eq_of_lt (a := j.toNat) (by omega),
    Nat.mod_eq_of_lt (a := i.toNat <<< 2) (by rw [Nat.shiftLeft_eq]; omega), byte0_nat h']

theorem decB1_nat (i j : Sextet) : (decB1 i j).toNat = (i.toNat % 16) * 16 + j.toNat / 4 := by
  have h := i.isLt
  have h' := j.isLt
  simp only [decB1, BitVec.toNat_setWidth, BitVec.toNat_or, BitVec.toNat_and, BitVec.toNat_shiftLeft, BitVec.toNat_ushiftRight]
  have : BitVec.toNat (0x0F : Byte) = 15 := rfl
  rw [this, Nat.mod_eq_of_lt (a := i.toNat) (by omega), Nat.mod_eq_of_lt (a := j.toNat) (by omega),
    Nat.mod_eq_of_lt (a := (i.toNat &&& 15) <<< 4) (by rw [and_fifteen, Nat.shiftLeft_eq]; omega), byte1_nat h']

theorem decB2_nat (i j : Sextet) : (decB2 i j).toNat = (i.toNat % 4) * 64 + j.toNat := by
  have h := i.isLt
  have h' := j.isLt
  simp only [decB2, BitVec.toNat_setWidth, BitVec.toNat_or, BitVec.toNat_and, BitVec.toNat_shiftLeft]
  have : BitVec.toNat (0x03 : Byte) = 3 := rfl
  rw [this, Nat.mod_eq_of_lt (a := i.toNat) (by omega), Nat.mod_eq_of_lt (a := j.toNat) (by omega),
    Nat.mod_eq_of_lt (a := (i.toNat &&& 3) <<< 6) (by rw [and_three, Nat.shiftLeft_eq]; omega), byte2_nat h']

theorem T_injective {k l : Sextet} (h : T k = T l) : k = l := by
  have := alphaIndex_T k
  rw [h, alphaIndex_T] at this
  exact (Option.some.inj this).symm

end Sys2Proof.Machine
end

