-- ==== Sys2Proof/Tests/Slice0.lean ====
section
/-! SUPPORT. Tests: command words written out from the spec's encodings, vectors of 95_test_vectors.md as single steps, and
for every statement with hypotheses a state that meets them. -/

namespace Sys2Proof.Tests

open Sys2Proof Sys2Proof.Machine

/-! ## Small machines -/

/-- Every data address answers; the window is not in the data memory's address map. -/
def everywhere : Platform := ⟨0x80000000, false, [⟨0, 2 ^ 32⟩]⟩

/-- Every data address answers but one. -/
def allBut (a : Nat) : Platform := ⟨0x80000000, false, [⟨0, a⟩, ⟨a + 1, 2 ^ 32⟩]⟩

/-- Bytes, none of them zero, laid out from an address. -/
def bytesFrom : Nat → List Byte → Memory
  | _, [] => []
  | a, v :: rest => (a, v) :: bytesFrom (a + 1) rest

/-- The machine after reset with these operands and source bytes. -/
def machine (p : Platform) (src : Word) (bytes : List Byte) (n dst cap : Word) : State :=
  { State.reset with
    platform := p, mem := bytesFrom src.toNat bytes, srcAddr := src, srcLen := n, dstAddr := dst, dstCap := cap }

/-- A machine whose next event is this one. -/
def facing (e : Event) (s : State) : State := { s with pending := [e] }

/-- `STATUS`, `RESULT`, `ERR_GROUP` and the bytes at an address after one step. -/
def seen (o : Host.Outcome State Fault Refusal) (a len : Nat) : Option (Nat × Nat × Nat × List Nat) :=
  match o with
  | .next t =>
    some (t.status.toNat, t.result.toNat, t.errGroup.toNat, (List.range len).map fun k => (byteAt t (a + k)).toNat)
  | .fault _ => none
  | .refused _ => none

/-! ## Well-formedness: a command has no field that could be ill formed; a command word has two -/

/-- 30_encoding.md R91: a word with a bit of `RSVD` set. -/
theorem test_rsvdZero_refuses : CommandWord.rsvdZero 0x00000011 = false ∧ CommandWord.legal 0x00000011 = false := by
  decide

/-- 30_encoding.md R94: the words next to the assigned codes. -/
theorem test_opAssigned_refuses : CommandWord.opAssigned 0x00000000 = false ∧ CommandWord.opAssigned 0x00000006 = false ∧
    CommandWord.legal 0x00000000 = false ∧ CommandWord.legal 0x00000006 = false := by decide

theorem test_wellFormed : Instr.wellFormed .encBulk = true ∧ Instr.wellFormed .encBound = true ∧
    Instr.wellFormed .decBulk = true ∧ Instr.wellFormed .decBound = true ∧ Instr.wellFormed .decSize = true := by decide

/-! ## Decoding: the words of 30_encoding.md R94, bit by bit -/

theorem test_decode_ENC_BULK : decode 0b00000000000000000000000000000001 = .ok .encBulk := by decide

theorem test_decode_ENC_BOUND : decode 0b00000000000000000000000000000010 = .ok .encBound := by decide

theorem test_decode_DEC_BULK : decode 0b00000000000000000000000000000011 = .ok .decBulk := by decide

theorem test_decode_DEC_BOUND : decode 0b00000000000000000000000000000100 = .ok .decBound := by decide

theorem test_decode_DEC_SIZE : decode 0b00000000000000000000000000000101 = .ok .decSize := by decide

/-- 30_encoding.md R96: illegal words of 95_test_vectors.md section 6. -/
theorem test_decode_illegal : decode 0x00000000 = .error (.opUnassigned 0x0) ∧ decode 0x0000000F = .error (.opUnassigned 0xF) ∧
    decode 0x80000001 = .error .rsvdNotZero ∧ decode 0xFFFFFFFF = .error .rsvdNotZero := by decide

theorem test_decodeTableWord : decodeTableWord 32 1 = some .encBulk ∧ decodeTableWord 32 2 = some .encBound ∧
    decodeTableWord 32 3 = some .decBulk ∧ decodeTableWord 32 4 = some .decBound ∧ decodeTableWord 32 5 = some .decSize ∧
    decodeTableWord 32 6 = none := by decide

/-- After reset the operands are 0, so a command ends `NULL_SRC` (program P4 of 95_test_vectors.md). -/
theorem test_first_command_after_reset :
    seen (step (State.reset.withFetchWord 32 1)) 0 0 = some (0x12, 0, 0, []) := by decide

/-! ## Vectors of 95_test_vectors.md, one step each -/

/-- EB1: "Man" gives `TWFu`. -/
theorem test_ENC_BULK_Man :
    seen (step ((machine everywhere 0x1000 [0x4D, 0x61, 0x6E] 3 0x2000 4).withFetchWord 32 1)) 0x2000 4 =
      some (0x001, 4, 0, [0x54, 0x57, 0x46, 0x75]) := by decide

/-- EB14: the last output byte falls on the source: `OVERLAP`, nothing written. -/
theorem test_ENC_BULK_overlap :
    seen (step ((machine everywhere 0x1000 [0x4D, 0x61, 0x6E] 3 0x0FFD 4).withFetchWord 32 1)) 0x0FFD 4 =
      some (0x092, 0, 0, [0, 0, 0, 0x4D]) := by decide

/-- EO1: "Ma" gives `TWE=`. -/
theorem test_ENC_BOUND_Ma :
    seen (step ((machine everywhere 0x1000 [0x4D, 0x61] 2 0x2000 4).withFetchWord 32 2)) 0x2000 4 =
      some (0x101, 4, 0, [0x54, 0x57, 0x45, 0x3D]) := by decide

/-- EO17: with one byte the address after it is not read, so it need not answer. -/
theorem test_ENC_BOUND_one_byte :
    seen (step ((machine (allBut 0x1001) 0x1000 [0x4D] 1 0x2000 4).withFetchWord 32 2)) 0x2000 4 =
      some (0x201, 4, 0, [0x54, 0x51, 0x3D, 0x3D]) := by decide

/-- DB5: `+/+/` gives FB FF BF. -/
theorem test_DEC_BULK_plus_slash :
    seen (step ((machine everywhere 0x1000 [0x2B, 0x2F, 0x2B, 0x2F] 4 0x2000 3).withFetchWord 32 3)) 0x2000 3 =
      some (0x001, 3, 0, [0xFB, 0xFF, 0xBF]) := by decide

/-- DB18: `@WFuTWFu` with a hole at `S + 5`: group 0 is malformed before group 1 is read. -/
theorem test_DEC_BULK_malformed_first :
    seen (step ((machine (allBut 0x1005) 0x1000 [0x40, 0x57, 0x46, 0x75, 0x54, 0x57, 0x46, 0x75] 8 0x2000 6).withFetchWord
      32 3)) 0x2000 0 = some (0x003, 0, 0, []) := by decide

/-- DO5: `TWF=`, whose last index has unused bits set, gives 4D 61. -/
theorem test_DEC_BOUND_unused_bits :
    seen (step ((machine everywhere 0x1000 [0x54, 0x57, 0x46, 0x3D] 4 0x2000 2).withFetchWord 32 4)) 0x2000 2 =
      some (0x101, 2, 0, [0x4D, 0x61]) := by decide

/-- DO24: `@@@@` with no room: the destination checks come before validation. -/
theorem test_DEC_BOUND_checks_before_validation :
    seen (step ((machine everywhere 0x1000 [0x40, 0x40, 0x40, 0x40] 4 0x2000 0).withFetchWord 32 4)) 0x2000 0 =
      some (0x072, 0, 0, []) := by decide

/-- SZ4: `TWFuTQ==` has decoded size 4. -/
theorem test_DEC_SIZE_two_groups :
    seen (step ((machine everywhere 0x1000 [0x54, 0x57, 0x46, 0x75, 0x54, 0x51, 0x3D, 0x3D] 8 0 0).withFetchWord 32 5))
      0 0 = some (0x201, 4, 0, []) := by decide

/-- SZ7: `@@@@` is not validated. -/
theorem test_DEC_SIZE_not_validated :
    seen (step ((machine everywhere 0x1000 [0x40, 0x40, 0x40, 0x40] 4 0 0).withFetchWord 32 5)) 0 0 =
      some (0x001, 3, 0, []) := by decide

/-- 30_encoding.md R96: the illegal word 0x16 reads no operand. -/
theorem test_illegal_word :
    seen (step ((machine everywhere 0x1000 [0x4D, 0x61, 0x6E] 3 0x2000 4).withFetchWord 32 0x16)) 0x2000 4 =
      some (0x004, 0, 0, [0, 0, 0, 0]) := by decide

/-! ## Witnesses: for every statement with hypotheses, a state and operands that meet them -/

/-- "Man" ready for `ENC_BULK`. -/
def manBulk : State := machine everywhere 0x1000 [0x4D, 0x61, 0x6E] 3 0x2000 4

/-- "Ma" ready for `ENC_BOUND`. -/
def maBound : State := machine everywhere 0x1000 [0x4D, 0x61] 2 0x2000 4

/-- "M" ready for `ENC_BOUND`. -/
def mBound : State := machine everywhere 0x1000 [0x4D] 1 0x2000 4

/-- `TWFuTWFu` ready for `DEC_BULK`. -/
def textBulk : State :=
  machine everywhere 0x1000 [0x54, 0x57, 0x46, 0x75, 0x54, 0x57, 0x46, 0x75] 8 0x2000 6

/-- A final group of four characters ready for `DEC_BOUND`. -/
def tail (c0 c1 c2 c3 : Byte) : State := machine everywhere 0x1000 [c0, c1, c2, c3] 4 0x2000 3

theorem witness_DecodeOfEncodeIsTheCommand : Instr.wellFormed .decSize = true := by decide

theorem witness_DecodeAcceptsExactlyTheEncodings : decode 0x00000005 = .ok .decSize ∧ CommandWord.legal 0x00000005 = true ∧
    CommandWord.legal 0x00000001 = true := by decide

theorem witness_HostWriteToCmdExecutesEveryWord : (1 : Word).toNat = 1 ∧ (2 : Word).toNat = 2 ∧ (3 : Word).toNat = 3 ∧
    (4 : Word).toNat = 4 ∧ (5 : Word).toNat = 5 ∧ (0 : Word).toNat = 0 ∧ 5 < (6 : Word).toNat := by decide

theorem witness_StepRunsTheDecodedCommand :
    (facing (.hostWrite (.window 0x14) 32 1) manBulk).pending = [.hostWrite (.window 0x14) 32 1] ∧
      HostAddr.offset? manBulk.platform (.window 0x14) = some 0x14 ∧ decode 1 = .ok .encBulk := by decide

theorem witness_StepOnIllegalWord :
    (facing (.hostWrite (.absolute 0x80000014) 32 0x10) manBulk).pending =
        [.hostWrite (.absolute 0x80000014) 32 0x10] ∧
      HostAddr.offset? manBulk.platform (.absolute 0x80000014) = some 0x14 ∧ (0x10 : Word).toNat / 16 ≠ 0 ∧
      (0x0 : Word).toNat % 16 = 0 ∧ 6 ≤ (0x6 : Word).toNat % 16 ∧ 6 ≤ (0xF : Word).toNat % 16 := by decide

theorem witness_WindowOffsetsAreRelativeToBase : 0 < 64 ∧ 63 < 64 := by decide

theorem witness_HostReadHasNoSideEffect :
    (facing (.hostRead (.window 0x20) 32) manBulk).pending = [.hostRead (.window 0x20) 32] ∧
      ∀ o ∈ [0x04, 0x08, 0x0C, 0x10, 0x14, 0x18, 0x1C, 0x20],
        HostAddr.offset? manBulk.platform (.window o) = some o ∧ o % 4 = 0 := by decide

theorem witness_IdReadsItsConstant :
    (facing (.hostRead (.window 0x00) 32) manBulk).pending = [.hostRead (.window 0x00) 32] ∧
      (facing (.hostWrite (.window 0x00) 32 7) manBulk).pending = [.hostWrite (.window 0x00) 32 7] := by decide

theorem witness_ReservedOffsetsReadZeroAndIgnoreWrites : (0x24 = 0x24) ∧ (0x3C = 0x3C) := by decide

theorem witness_ReadOnlyRegistersIgnoreWrites : (0x00 = 0x00) ∧ (0x20 = 0x20) := by decide

theorem witness_BadAccessHasNoEffect :
    HostAddr.offset? manBulk.platform (.window 0x14) = some 0x14 ∧ ((8 ≠ 32) ∨ 0x14 % 4 ≠ 0) ∧
      HostAddr.offset? manBulk.platform (.window 63) = some 63 ∧ ((32 ≠ 32) ∨ 63 % 4 ≠ 0) ∧
      (facing (.hostRead (.window 63) 32) manBulk).pending = [.hostRead (.window 63) 32] ∧
      (facing (.hostWrite (.window 0x14) 8 1) manBulk).pending = [.hostWrite (.window 0x14) 8 1] := by decide

theorem witness_OtherAgentsReadWithoutEffect :
    (facing (.memRead 0) manBulk).pending = [.memRead 0] ∧ Platform.inWindow manBulk.platform 0 = false := by decide

/-- The first and the last byte of a window that shares the data memory's addresses. -/
theorem witness_OtherAgentsByteAccessToTheWindowHasNoEffect :
    let shared : State := { manBulk with platform := ⟨0x8000, true, [⟨0, 2 ^ 32⟩]⟩ }
    Platform.inWindow shared.platform (0x8000 : Word).toNat = true ∧
      Platform.inWindow shared.platform (0x803F : Word).toNat = true ∧
      (facing (.memWrite 0x8000 1) shared).pending = [.memWrite 0x8000 1] ∧
      (facing (.memRead 0x803F) shared).pending = [.memRead 0x803F] := by decide

theorem witness_IdleUnitChangesNothing : manBulk.pending = [] := by decide

/-- The register window at the top of the data memory's address map. -/
theorem witness_WindowAndOutsideNeverAnswer :
    (⟨0xFFFFFFC0, true, [⟨0, 2 ^ 32⟩]⟩ : Platform).windowInDataMap = true ∧ 0xFFFFFFC0 ≤ 0xFFFFFFFF ∧
      0xFFFFFFFF < 0xFFFFFFC0 + 64 ∧ 2 ^ 32 ≤ 0x100000000 := by decide

theorem witness_ResetEventSetsEveryRegister : (facing .reset manBulk).pending = [.reset] := by decide

/-- A reset that cuts `ENC_BULK` off, with a window for it to spoil. -/
theorem witness_ResetDuringCommandSpoilsOnlyItsWindow :
    (facing (.resetDuringCommand 1) manBulk).pending = [.resetDuringCommand 1] ∧ decode 1 = .ok .encBulk ∧
      windowLength .encBulk manBulk = some 4 := by decide

theorem witness_OtherAgentsWriteOneByte :
    (facing (.memWrite 0xFFFFFFFF 0x5A) manBulk).pending = [.memWrite 0xFFFFFFFF 0x5A] ∧
      Platform.inWindow manBulk.platform (0xFFFFFFFF : Word).toNat = false := by decide

theorem witness_IndexIsTheInverseOfTheTable : index 0x2F = .sextet 63 ∧ index 0x41 = .sextet 0 := by decide

theorem witness_Dec4AndEnc3AreInverse : enc3 0x4D 0x61 0x6E = [T 19, T 22, T 5, T 46] := by decide

/-- Each condition of `CheckSrc` at its edge, for the class it belongs to. -/
theorem witness_SourceChecksRejectInOrder :
    (machine everywhere 0 [] 3 0x2000 4).srcAddr.toNat = 0 ∧
    ((machine everywhere 1 [] 0 0x2000 4).srcAddr.toNat ≠ 0 ∧ (machine everywhere 1 [] 0 0x2000 4).srcLen.toNat = 0) ∧
    (¬LenAccepted (lenClass .encBulk) 4 ∧ ¬LenAccepted (lenClass .encBound) 3 ∧ ¬LenAccepted (lenClass .decBulk) 5 ∧
      ¬LenAccepted (lenClass .decBound) 5 ∧ ¬LenAccepted (lenClass .decSize) 6) ∧
    ((0xFFFFFFFE : Word).toNat ≠ 0 ∧ LenAccepted (lenClass .encBulk) 3 ∧ 2 ^ 32 < (0xFFFFFFFE : Word).toNat + 3) := by
  simp only [lenClass]
  decide

/-- The premises of the four conditions of `CheckDst`, each in a machine at its edge, for `n` source bytes, an output of
`out` bytes and a destination whose last byte or first byte falls on the source. -/
abbrev DstEdges (n out overlapping : Word) : Prop :=
  (machine everywhere 0x1000 [] n 0 out).dstAddr.toNat = 0 ∧
  ((machine everywhere 0x1000 [] n 0x2000 (out - 1)).dstAddr.toNat ≠ 0 ∧
    (machine everywhere 0x1000 [] n 0x2000 (out - 1)).dstCap.toNat < out.toNat) ∧
  ((machine everywhere 0x1000 [] n (1 - out) out).dstAddr.toNat ≠ 0 ∧
    out.toNat ≤ (machine everywhere 0x1000 [] n (1 - out) out).dstCap.toNat ∧
    2 ^ 32 < (machine everywhere 0x1000 [] n (1 - out) out).dstAddr.toNat + out.toNat) ∧
  ((machine everywhere 0x1000 [] n overlapping out).dstAddr.toNat ≠ 0 ∧
    out.toNat ≤ (machine everywhere 0x1000 [] n overlapping out).dstCap.toNat ∧
    (machine everywhere 0x1000 [] n overlapping out).dstAddr.toNat + out.toNat ≤ 2 ^ 32 ∧
    ¬WindowsApart 0x1000 n.toNat (machine everywhere 0x1000 [] n overlapping out).dstAddr.toNat out.toNat)

theorem witness_DestinationChecksRejectInOrder :
    ((∀ d c, SrcUsable (operands (machine everywhere 0x1000 [] 3 d c)) .bulk3) ∧ DstEdges 3 4 0x0FFD) ∧
    ((∀ d c, SrcUsable (operands (machine everywhere 0x1000 [] 1 d c)) .bound3) ∧ DstEdges 1 4 0x1000) ∧
    ((∀ d c, SrcUsable (operands (machine everywhere 0x1000 [] 4 d c)) .bulk4) ∧ DstEdges 4 3 0x1003) := by
  refine ⟨⟨fun d c => ?_, by decide⟩, ⟨fun d c => ?_, by decide⟩, fun d c => ?_, by decide⟩
  all_goals simp [SrcUsable, LenAccepted, operands, machine]

/-- A hole in the four characters; and the edges of the destination checks for a padded final group, whose output is one
byte, or two. -/
theorem witness_DecBoundChecksDestinationAfterReading :
    (SrcUsable (operands (machine (allBut 0x1003) 0x1000 [0x54] 4 0 0)) .bound4 ∧ ¬Answers (allBut 0x1003) 0x1000 4) ∧
    (∀ d c, SrcUsable (operands (machine everywhere 0x1000 [0x54, 0x51, 0x3D, 0x3D] 4 d c)) .bound4) ∧
    Answers everywhere 0x1000 4 ∧ (3 - padCount 0x3D 0x3D = 1 ∧ 3 - padCount 0x45 0x3D = 2) ∧ DstEdges 4 2 0x1003 ∧
    (1 ≤ (1 : Word).toNat ∧ (0x1003 : Word).toNat + 1 ≤ 2 ^ 32 ∧ ¬WindowsApart 0x1000 4 0x1003 1) := by
  refine ⟨by decide, fun d c => ?_, by decide, by decide, by decide, by decide⟩
  simp [SrcUsable, LenAccepted, operands, machine]

theorem witness_EncBulkCompletes : SrcUsable (operands manBulk) .bulk3 ∧ DstUsable (operands manBulk) 4 ∧
    4 * (manBulk.srcLen.toNat / 3) = 4 ∧ Answers everywhere 0x1000 3 ∧ Answers everywhere 0x2000 4 := by decide

theorem witness_EncBulkOutputLaw : ∃ t, exec .encBulk manBulk = .next t ∧ codeField t.status = 1 :=
  ⟨_, rfl, by decide⟩

/-- EB19: the second group is the first one that does not answer. -/
theorem witness_EncBulkBusErrorAtFirstGroup :
    SrcUsable (operands (machine (allBut 0x1004) 0x1000 [0x4D] 6 0x2000 8)) .bulk3 ∧
      DstUsable (operands (machine (allBut 0x1004) 0x1000 [0x4D] 6 0x2000 8)) 8 ∧ 1 < 6 / 3 ∧
      (∀ g, g < 1 → Answers (allBut 0x1004) (0x1000 + 3 * g) 3 ∧ Answers (allBut 0x1004) (0x2000 + 4 * g) 4) ∧
      ¬(Answers (allBut 0x1004) (0x1000 + 3 * 1) 3 ∧ Answers (allBut 0x1004) (0x2000 + 4 * 1) 4) := by decide

theorem witness_EncBoundCompletes :
    (SrcUsable (operands maBound) .bound3 ∧ DstUsable (operands maBound) 4 ∧ Answers everywhere 0x1000 2 ∧
      Answers everywhere 0x2000 4) ∧
    (SrcUsable (operands mBound) .bound3 ∧ DstUsable (operands mBound) 4 ∧ Answers everywhere 0x1000 1) := by decide

theorem witness_EncBoundOutputLaw :
    (∃ t, exec .encBound maBound = .next t ∧ codeField t.status = 1) ∧
      ∃ t, exec .encBound mBound = .next t ∧ codeField t.status = 1 := ⟨⟨_, rfl, by decide⟩, _, rfl, by decide⟩

/-- EO16. -/
theorem witness_EncBoundBusError :
    SrcUsable (operands (machine (allBut 0x1001) 0x1000 [0x4D] 2 0x2000 4)) .bound3 ∧
      DstUsable (operands (machine (allBut 0x1001) 0x1000 [0x4D] 2 0x2000 4)) 4 ∧
      ¬(Answers (allBut 0x1001) 0x1000 2 ∧ Answers (allBut 0x1001) 0x2000 4) := by decide

theorem witness_DecBulkCompletes : SrcUsable (operands textBulk) .bulk4 ∧ DstUsable (operands textBulk) 6 ∧
    3 * (textBulk.srcLen.toNat / 4) = 6 ∧ Answers everywhere 0x1000 8 ∧ Answers everywhere 0x2000 6 ∧
    ∀ k, k < 8 → isAlpha (byteAt textBulk (0x1000 + k)) = true := by decide

/-- DB11: a padded text given whole to `DEC_BULK`. -/
def paddedBulk : State :=
  machine everywhere 0x1000 [0x54, 0x57, 0x46, 0x75, 0x54, 0x57, 0x45, 0x3D] 8 0x2000 6

theorem witness_DecBulkMalformedAtFirstGroup :
    SrcUsable (operands paddedBulk) .bulk4 ∧ DstUsable (operands paddedBulk) 6 ∧ 1 < 8 / 4 ∧
      Answers everywhere 0x1000 8 ∧ Answers everywhere 0x2000 3 ∧
      (∀ k, k < 4 → isAlpha (byteAt paddedBulk (0x1000 + k)) = true) ∧
      (3 < 4 ∧ isAlpha (byteAt paddedBulk (0x1000 + 4 * 1 + 3)) = false) := by decide

/-- DB17, and the same text with a hole in the destination instead. -/
theorem witness_DecBulkBusErrorAtFirstGroup :
    SrcUsable (operands textBulk) .bulk4 ∧ DstUsable (operands textBulk) 6 ∧ 1 < 8 / 4 ∧
      (Answers (allBut 0x1005) 0x1000 4 ∧ Answers (allBut 0x1005) 0x2000 3 ∧ ¬Answers (allBut 0x1005) (0x1000 + 4) 4) ∧
      (Answers (allBut 0x2005) 0x1000 4 ∧ Answers (allBut 0x2005) 0x2000 3 ∧ ¬Answers (allBut 0x2005) (0x2000 + 3) 3) ∧
      ∀ k, k < 8 → isAlpha (byteAt textBulk (0x1000 + k)) = true := by decide

/-- One final group for each pad count. -/
theorem witness_DecBoundCompletes :
    (TailValid 0x54 0x51 0x3D 0x3D 2 ∧ DstUsable (operands (tail 0x54 0x51 0x3D 0x3D)) 1) ∧
    (TailValid 0x54 0x57 0x45 0x3D 1 ∧ DstUsable (operands (tail 0x54 0x57 0x45 0x3D)) 2) ∧
    (TailValid 0x54 0x57 0x46 0x75 0 ∧ DstUsable (operands (tail 0x54 0x57 0x46 0x75)) 3) ∧
    SrcUsable (operands (tail 0x54 0x57 0x46 0x75)) .bound4 ∧ Answers everywhere 0x1000 4 ∧ Answers everywhere 0x2000 3 :=
  ⟨by decide, by decide, by decide, by decide, by decide, by decide⟩

/-- DO13, `AB=C`, and DO12, `A===`. -/
theorem witness_DecBoundMalformed :
    (padCount 0x3D 0x43 = 0 ∧ ¬TailValid 0x41 0x42 0x3D 0x43 0 ∧
      DstUsable (operands (tail 0x41 0x42 0x3D 0x43)) 3) ∧
    (padCount 0x3D 0x3D = 2 ∧ ¬TailValid 0x41 0x3D 0x3D 0x3D 2 ∧ DstUsable (operands (tail 0x41 0x3D 0x3D 0x3D)) 1) ∧
    SrcUsable (operands (tail 0x41 0x42 0x3D 0x43)) .bound4 ∧ Answers everywhere 0x1000 4 := by decide

/-- DO25. -/
theorem witness_DecBoundWriteBusError :
    TailValid 0x54 0x57 0x46 0x75 0 ∧ SrcUsable (operands (tail 0x54 0x57 0x46 0x75)) .bound4 ∧
      DstUsable (operands (tail 0x54 0x57 0x46 0x75)) 3 ∧ Answers (allBut 0x2001) 0x1000 4 ∧
      ¬Answers (allBut 0x2001) 0x2000 3 := by decide

theorem witness_DecBoundIgnoresUnusedBits :
    (16 : Sextet).toNat / 16 = (17 : Sextet).toNat / 16 ∧ (4 : Sextet).toNat / 4 = (7 : Sextet).toNat / 4 := by decide

theorem witness_DecBoundIsDecBulkOnUnpaddedGroup :
    (tail 0x54 0x57 0x46 0x75).srcLen.toNat = 4 ∧ Answers everywhere 0x1000 4 ∧
      byteAt (tail 0x54 0x57 0x46 0x75) (0x1000 + 3) ≠ pad := by decide

theorem witness_DecSizeCompletes :
    SrcUsable (operands (tail 0x54 0x51 0x3D 0x3D)) .size4 ∧ Platform.accessible everywhere (0x1000 + 4 - 2) = true ∧
      Platform.accessible everywhere (0x1000 + 4 - 1) = true ∧
      2 = padCount (byteAt (tail 0x54 0x51 0x3D 0x3D) (0x1000 + 4 - 2)) (byteAt (tail 0x54 0x51 0x3D 0x3D) (0x1000 + 4 - 1)) := by
  decide

theorem witness_DecSizeBusError :
    SrcUsable (operands (machine (allBut 0x1007) 0x1000 [0x54] 8 0 0)) .size4 ∧
      ¬(Platform.accessible (allBut 0x1007) (0x1000 + 8 - 2) = true ∧
        Platform.accessible (allBut 0x1007) (0x1000 + 8 - 1) = true) := by decide

/-- Two texts that differ in their first characters only. -/
theorem witness_DecSizeReadsOnlyTheLastTwo :
    (tail 0x40 0x40 0x3D 0x3D).srcAddr = (tail 0x54 0x51 0x3D 0x3D).srcAddr ∧
      byteAt (tail 0x40 0x40 0x3D 0x3D) 0x1002 = byteAt (tail 0x54 0x51 0x3D 0x3D) 0x1002 ∧
      byteAt (tail 0x40 0x40 0x3D 0x3D) 0x1003 = byteAt (tail 0x54 0x51 0x3D 0x3D) 0x1003 ∧
      (∃ t, exec .decSize (tail 0x54 0x51 0x3D 0x3D) = .next t) ∧
      ∃ t, exec .decSize (tail 0x40 0x40 0x3D 0x3D) = .next t := ⟨by decide, by decide, by decide, ⟨_, rfl⟩, _, rfl⟩

/-- Commands with a destination window and without one. -/
theorem witness_WindowExistsOnceChecksPass :
    windowLength .encBulk manBulk = some 4 ∧ windowLength .encBound maBound = some 4 ∧
      windowLength .decBulk textBulk = some 6 ∧ windowLength .decBound (tail 0x54 0x51 0x3D 0x3D) = some 1 ∧
      windowLength .encBulk maBound = none := by decide

theorem witness_CommandsChangeOnlyOutcomeAndWindow :
    (∃ t, exec .encBulk manBulk = .next t) ∧ windowLength .encBulk manBulk = some 4 ∧
      windowLength .decSize manBulk = none ∧ ¬(0x2000 ≤ 0x1FFF ∧ 0x1FFF < 0x2000 + 4) ∧
      ¬(0x2000 ≤ 0x2004 ∧ 0x2004 < 0x2000 + 4) := ⟨⟨_, rfl⟩, by decide⟩

theorem witness_SourceWindowIsNeverWritten :
    (∃ t, exec .encBulk manBulk = .next t) ∧ manBulk.srcAddr.toNat ≤ 0x1002 ∧
      0x1002 < manBulk.srcAddr.toNat + manBulk.srcLen.toNat := ⟨⟨_, rfl⟩, by decide⟩

theorem witness_InvalidArgumentWritesNothing : ∃ t, exec .encBulk maBound = .next t ∧ codeField t.status = 2 :=
  ⟨_, rfl, by decide⟩

theorem witness_OnlyDecodersFindMalformedInput : ∃ t, exec .decBulk paddedBulk = .next t ∧ codeField t.status = 3 :=
  ⟨_, rfl, by decide⟩

theorem witness_EveryStepAnswersNext :
    (facing (.hostWrite (.window 0x14) 32 5) textBulk).pending = [.hostWrite (.window 0x14) 32 5] ∧
      HostAddr.offset? textBulk.platform (.window 0x14) = some 0x14 := by decide

/-- A state with the invariant that is not the reset state, and a step from it. -/
theorem witness_EveryStepKeepsTheInvariant :
    State.Inv (facing (.hostWrite (.window 0x14) 32 1) manBulk) ∧
      ∃ t, step (facing (.hostWrite (.window 0x14) 32 1) manBulk) = .next t :=
  ⟨⟨by decide, by constructor <;> decide⟩, _, rfl⟩

theorem witness_RepeatingSuccessChangesNothing :
    Memory.wf manBulk.mem = true ∧ ∃ t, exec .encBulk manBulk = .next t ∧ codeField t.status = 1 :=
  ⟨by decide, _, rfl, by decide⟩

/-- Four bytes, so that both encode commands run (program P1 of 95_test_vectors.md). -/
def fourBytes : State := machine everywhere 0x1000 [0x4D, 0x61, 0x6E, 0x21] 0 0 0

/-- Both ends of the equivalence: `OK` on four bytes, and an early end on none. -/
theorem witness_EncodeSequenceLaws :
    (∃ o t, refEncode 0x1000 4 0x2000 8 fourBytes = .next (o, t) ∧ o.code = 1) ∧
      ∃ o t, refEncode 0x1000 0 0x2000 8 fourBytes = .next (o, t) ∧ o.code = 2 :=
  ⟨⟨_, _, rfl, by decide⟩, _, _, rfl, by decide⟩

/-- `TWFuIQ==` (program P2 of 95_test_vectors.md). -/
def textFour : State :=
  machine everywhere 0x3000 [0x54, 0x57, 0x46, 0x75, 0x49, 0x51, 0x3D, 0x3D] 0 0 0

theorem witness_DecodeSequenceWritesItsSize :
    4 = 3 * (8 / 4) - padCount (byteAt textFour (0x3000 + 8 - 2)) (byteAt textFour (0x3000 + 8 - 1)) ∧
      (0x4000 + 4 ≤ 2 ^ 32 ∧ WindowsApart 0x3000 8 0x4000 4) ∧ ∃ o t, refDecode 0x3000 8 0x4000 4 textFour = .next (o, t) ∧ o.code = 1 :=
  ⟨by decide, by decide, _, _, rfl, by decide⟩

/-- `TW@u` (program P3 of 95_test_vectors.md). -/
def textMalformed : State := machine everywhere 0x3000 [0x54, 0x57, 0x40, 0x75] 0 0 0

/-- A destination that does not wrap, and one that does and lies apart from the text. -/
theorem witness_DecodeSequenceRejectsMalformedText :
    3 = 3 * (4 / 4) - padCount (byteAt textMalformed (0x3000 + 4 - 2)) (byteAt textMalformed (0x3000 + 4 - 1)) ∧
      (0x4000 + 3 ≤ 2 ^ 32 ∧ ¬0xFFFFFFFE + 3 ≤ 2 ^ 32 ∧ WindowsApart 0x3000 4 0xFFFFFFFE 3) ∧
      index (byteAt textMalformed (0x3000 + 2)) = .invalid ∧
      (∃ o t, refDecode 0x3000 4 0x4000 3 textMalformed = .next (o, t)) ∧
      ∃ o t, refDecode 0x3000 4 0xFFFFFFFE 3 textMalformed = .next (o, t) :=
  ⟨by decide, by decide, by decide, ⟨_, _, rfl⟩, _, _, rfl⟩

theorem witness_DecodeOfEncodeReturnsTheBytes :
    (∃ o t, refEncode 0x1000 4 0x2000 8 fourBytes = .next (o, t) ∧ o.code = 1) ∧ 0x4000 + 4 ≤ 2 ^ 32 ∧
      Answers everywhere 0x4000 4 ∧ textLength 4 = 8 ∧ WindowsApart 0x2000 (textLength 4) 0x4000 4 :=
  ⟨⟨_, _, rfl, by decide⟩, by decide⟩

end Sys2Proof.Tests
end

/-! PROOFS. The registers and the host's accesses to them (10_state.md), and the invariant that every step keeps. -/

namespace Sys2Proof.Machine

/-! ## Where a host access goes, and what it does there -/

theorem step_of_pending {s : State} {e : Event} {rest : List Event} (h : s.pending = e :: rest) :
    step s = handle e { s with pending := rest } := by
  simp only [step, h]

theorem target_register {p : Platform} {addr : HostAddr} {o : Nat} (ho : HostAddr.offset? p addr = some o)
    (h4 : o % 4 = 0) : target p addr 32 = .register (regAt o) := by
  simp [target, ho, h4]

theorem target_badAccess {p : Platform} {addr : HostAddr} {o width : Nat} (ho : HostAddr.offset? p addr = some o)
    (h : width ≠ 32 ∨ o % 4 ≠ 0) : target p addr width = .badAccess := by
  simp only [target, ho]
  exact if_neg (by omega)

theorem offset?_window {o : Nat} (h : o < 64) (p : Platform) : HostAddr.offset? p (.window o) = some o := if_pos h

theorem offset?_absolute {o : Nat} (h : o < 64) (p : Platform) :
    HostAddr.offset? p (.absolute (p.b64Base + o)) = some o := by
  simp [HostAddr.offset?, h]

/-- The two forms of a host address inside the window go to the same place (10_state.md R24). -/
theorem target_absolute {o : Nat} (h : o < 64) (p : Platform) (width : Nat) :
    target p (.absolute (p.b64Base + o)) width = target p (.window o) width := by
  simp only [target, offset?_absolute h, offset?_window h]

section
variable {s : State} {addr : HostAddr} {width : Nat} {r : Reg} {v : Word}

theorem handle_hostRead_register (h : target s.platform addr width = .register r) :
    handle (.hostRead addr width) s = .next (answer (.data (readReg r s)) s) := by
  simp only [handle, hostRead, h]

theorem handle_hostRead_badAccess (h : target s.platform addr width = .badAccess) :
    handle (.hostRead addr width) s = .next (answer .error s) := by
  simp only [handle, hostRead, h]

theorem handle_hostWrite_badAccess (h : target s.platform addr width = .badAccess) :
    handle (.hostWrite addr width v) s = .next (answer .error s) := by
  simp only [handle, hostWrite, h]

theorem handle_hostWrite_cmd (h : target s.platform addr width = .register .cmd) :
    handle (.hostWrite addr width v) s = execute v (answer .done (storeReg .cmd v s)) := by
  simp only [handle, hostWrite, h, if_true]

theorem handle_hostWrite_register (h : target s.platform addr width = .register r) (hr : r ≠ .cmd) :
    handle (.hostWrite addr width v) s = .next (answer .done (storeReg r v s)) := by
  simp only [handle, hostWrite, h, if_neg hr]

end

theorem execute_of_decode {w : Word} {i : Instr} (h : decode w = .ok i) (s : State) : execute w s = exec i s := by
  simp only [execute, h]

/-- The offsets past `ERR_GROUP` are the reserved words (10_state.md R26). -/
theorem regAt_reserved {o : Nat} (h : 0x24 ≤ o) : regAt o = .reserved := by
  have hne : ∀ k, k < 0x24 → o ≠ k := by omega
  simp [regAt, hne]

/-! ## The register window in a shared address map -/

theorem Platform.inWindow_iff {p : Platform} {a : Nat} :
    Platform.inWindow p a = true ↔ p.windowInDataMap = true ∧ p.b64Base ≤ a ∧ a < p.b64Base + 64 := by
  simp [Platform.inWindow, and_assoc]

theorem Platform.not_inWindow_of_accessible {p : Platform} {a : Nat} (h : Platform.accessible p a = true) :
    ¬Platform.inWindow p a = true := by
  simp only [Platform.accessible, Bool.and_eq_true, Bool.not_eq_true'] at h
  simp [h.2]

theorem handle_memWrite_of_inWindow {s : State} {a : Word} {v : Byte}
    (h : Platform.inWindow s.platform a.toNat = true) : handle (.memWrite a v) s = .next (answer .error s) := by
  simp only [handle, otherWrite, h, if_true]

theorem handle_memRead_of_inWindow {s : State} {a : Word} (h : Platform.inWindow s.platform a.toNat = true) :
    handle (.memRead a) s = .next (answer .error s) := by
  simp only [handle, otherRead, h, if_true]

/-! ## The invariant -/

theorem State.Inv.congr {s t : State} (h : State.Inv s) (hmem : t.mem = s.mem) (hstatus : t.status = s.status)
    (hresult : t.result = s.result) (hgroup : t.errGroup = s.errGroup) : State.Inv t :=
  ⟨hmem ▸ h.mem, h.outcome.congr hstatus hresult hgroup⟩

theorem answer_inv {s : State} (h : State.Inv s) (r : Response) : State.Inv (answer r s) := h.congr rfl rfl rfl rfl

theorem storeReg_inv {s : State} (h : State.Inv s) (r : Reg) (v : Word) : State.Inv (storeReg r v s) :=
  h.congr (storeReg_mem r v s) (storeReg_status r v s) (storeReg_result r v s) (storeReg_errGroup r v s)

theorem OutcomeLegal.reset : OutcomeLegal State.reset := by constructor <;> decide

theorem resetUnit_inv {s : State} (h : Memory.wf s.mem = true) : State.Inv (resetUnit s) :=
  ⟨h, OutcomeLegal.reset.congr rfl rfl rfl⟩

theorem wf_drawWindow {s : State} (h : Memory.wf s.mem = true) (out : Nat) :
    Memory.wf (drawWindow out s).mem = true := wf_drawBytes _ _ _ _ h

/-- However a command ends, it leaves the invariant; of the state it starts from this takes the memory's form only. -/
theorem Ended.inv {i : Instr} {s t : State} (h : Ended i s t) (hmem : Memory.wf s.mem = true) : State.Inv t := by
  cases h with
  | rejected e => exact ⟨hmem, raise_legal e s⟩
  | done result pads m hp _ hwf => exact ⟨hwf hmem, finish_legal hp _⟩
  | spoiled out g e => exact ⟨wf_drawWindow hmem out, raise_legal e _⟩

theorem execute_inv {w : Word} {s t : State} (hmem : Memory.wf s.mem = true) (h : execute w s = .next t) :
    State.Inv t := by
  unfold execute at h
  split at h
  · exact (exec_ended h).inv hmem
  · exact Host.Outcome.next.inj h ▸ ⟨hmem, raise_legal _ s⟩

theorem hostWrite_inv {addr : HostAddr} {width : Nat} {v : Word} {s t : State} (hs : State.Inv s)
    (h : hostWrite addr width v s = .next t) : State.Inv t := by
  unfold hostWrite at h
  split at h
  · exact Host.Outcome.next.inj h ▸ answer_inv hs _
  · exact Host.Outcome.next.inj h ▸ answer_inv hs _
  · split at h
    · exact execute_inv (answer_inv (storeReg_inv hs .cmd v) .done).mem h
    · exact Host.Outcome.next.inj h ▸ answer_inv (storeReg_inv hs _ v) _

theorem hostRead_inv {s : State} (hs : State.Inv s) (addr : HostAddr) (width : Nat) :
    State.Inv (hostRead addr width s) := by
  unfold hostRead
  split <;> exact answer_inv hs _

theorem otherWrite_inv {s : State} (hs : State.Inv s) (a : Word) (v : Byte) : State.Inv (otherWrite a v s) := by
  unfold otherWrite
  split
  · exact answer_inv hs _
  · exact ⟨Memory.wf_write hs.mem a.isLt, hs.outcome.congr rfl rfl rfl⟩

theorem otherRead_inv {s : State} (hs : State.Inv s) (a : Word) : State.Inv (otherRead a s) := by
  unfold otherRead
  split <;> exact answer_inv hs _

theorem wf_cutOff {s : State} (h : Memory.wf s.mem = true) (w : Word) : Memory.wf (cutOff w s).mem = true := by
  unfold cutOff
  split
  · exact h
  · split
    · exact h
    · exact wf_drawWindow h _

/-- Every event keeps the invariant. -/
theorem handle_inv {e : Event} {s t : State} (hs : State.Inv s) (h : handle e s = .next t) : State.Inv t := by
  cases e with
  | hostWrite addr width v => exact hostWrite_inv hs h
  | hostRead addr width => exact Host.Outcome.next.inj h ▸ hostRead_inv hs addr width
  | memWrite a v => exact Host.Outcome.next.inj h ▸ otherWrite_inv hs a v
  | memRead a => exact Host.Outcome.next.inj h ▸ otherRead_inv hs a
  | reset => exact Host.Outcome.next.inj h ▸ resetUnit_inv hs.mem
  | resetDuringCommand w => exact Host.Outcome.next.inj h ▸ resetUnit_inv (wf_cutOff hs.mem w)

/-! ## The obligations -/

/-- Settles O52: an idle step changes nothing, and every event keeps the invariant. -/
theorem everyStepKeepsTheInvariant : Obligations.EveryStepKeepsTheInvariant := by
  intro s t hs h
  cases hp : s.pending with
  | nil =>
    simp only [step, hp] at h
    exact Host.Outcome.next.inj h ▸ hs
  | cons e rest =>
    rw [step_of_pending hp] at h
    exact handle_inv (s := { s with pending := rest }) (hs.congr rfl rfl rfl rfl) h

/-- Settles O5: the access goes to `CMD`, which stores the word and executes it. -/
theorem stepRunsTheDecodedCommand : Obligations.StepRunsTheDecodedCommand := by
  intro s addr w rest i hp ho hd
  have ht : target s.platform addr 32 = .register .cmd := target_register ho rfl
  calc step s = handle (.hostWrite addr 32 w) { s with pending := rest } := step_of_pending hp
    _ = execute w { s with pending := rest, cmd := w, response := .done } := handle_hostWrite_cmd ht
    _ = exec i { s with pending := rest, cmd := w, response := .done } := execute_of_decode hd _

/-- Settles O7: an access depends on its address through its target only, and the two targets are one. -/
theorem windowOffsetsAreRelativeToBase : Obligations.WindowOffsetsAreRelativeToBase := by
  intro s o width v ho
  simp only [hostWrite, hostRead, target_absolute ho, and_self]

/-- Settles O8: the access goes to the word at its offset, and a read answers that word. -/
theorem hostReadHasNoSideEffect : Obligations.HostReadHasNoSideEffect := by
  intro s addr o rest hp ho h4
  refine ⟨readReg (regAt o) { s with pending := rest }, ?_, ?_⟩
  · exact (step_of_pending hp).trans (handle_hostRead_register (target_register ho h4))
  · refine ⟨?_, ?_, ?_, ?_, ?_, ?_, ?_, ?_⟩ <;> (rintro rfl; rfl)

/-- Settles O9: `ID` reads as its constant and stores nothing. -/
theorem idReadsItsConstant : Obligations.IdReadsItsConstant := by
  refine ⟨fun s rest hp => ?_, fun s v rest hp => ?_, by decide, by decide⟩
  · exact (step_of_pending hp).trans (handle_rd .id _)
  · exact (step_of_pending hp).trans (handle_wr (r := .id) (by simp) v _)

/-- Settles O10: each of the seven offsets is a reserved word, which reads 0 and stores nothing. -/
theorem reservedOffsetsReadZeroAndIgnoreWrites : Obligations.ReservedOffsetsReadZeroAndIgnoreWrites := by
  intro s o v ho
  have ht : target s.platform (.window o) 32 = .register .reserved := by
    rw [target_register (offset?_window (by omega) _) (by omega), regAt_reserved (by omega)]
  exact ⟨Host.Outcome.next.inj (handle_hostRead_register ht), handle_hostWrite_register ht (by simp)⟩

/-- Settles O11: none of the four registers stores what is written to it. -/
theorem readOnlyRegistersIgnoreWrites : Obligations.ReadOnlyRegistersIgnoreWrites := by
  rintro s o v (rfl | rfl | rfl | rfl)
  · exact handle_wr (r := .id) (by simp) v s
  · exact handle_wr (r := .status) (by simp) v s
  · exact handle_wr (r := .result) (by simp) v s
  · exact handle_wr (r := .errGroup) (by simp) v s

/-- Settles O12: such an access goes to no register. -/
theorem badAccessHasNoEffect : Obligations.BadAccessHasNoEffect := by
  intro s addr o width v rest ho h
  have ht : target s.platform addr width = .badAccess := target_badAccess ho h
  exact ⟨fun hp => (step_of_pending hp).trans (handle_hostRead_badAccess ht),
    fun hp => (step_of_pending hp).trans (handle_hostWrite_badAccess ht)⟩

/-- Settles O13: each operand register stores the word written to it. -/
theorem operandWritesStoreEveryValue : Obligations.OperandWritesStoreEveryValue := by
  intro s v
  exact ⟨handle_wr (r := .srcAddr) (by simp) v s, handle_wr (r := .srcLen) (by simp) v s,
    handle_wr (r := .dstAddr) (by simp) v s, handle_wr (r := .dstCap) (by simp) v s⟩

/-- Settles O20: an accessible address is below `2^32` and outside a shared register window. -/
theorem windowAndOutsideNeverAnswer : Obligations.WindowAndOutsideNeverAnswer := by
  intro p a h
  rw [← Bool.not_eq_true]
  intro hacc
  obtain htop | hwin := h
  · exact absurd (Platform.accessible_lt hacc) (by omega)
  · exact Platform.not_inWindow_of_accessible hacc (Platform.inWindow_iff.mpr hwin)

/-- Settles O60: on a shared register window another agent's access is answered with the error response only. -/
theorem otherAgentsByteAccessToTheWindowHasNoEffect : Obligations.OtherAgentsByteAccessToTheWindowHasNoEffect := by
  intro s a v rest hw
  exact ⟨fun hp => (step_of_pending hp).trans (handle_memWrite_of_inWindow hw),
    fun hp => (step_of_pending hp).trans (handle_memRead_of_inWindow hw)⟩

end Sys2Proof.Machine

/-! PROOFS. The data memory (20_memory.md): what the other agents' accesses do to it, what a command leaves of it, and that a
successful command repeated leaves the same. -/

namespace Sys2Proof.Machine

/-! ## Other agents, and no event -/

theorem step_of_no_event {s : State} (h : s.pending = []) : step s = .next s := by
  simp only [step, h]

section
variable {s : State} {a : Word} {v : Byte}

theorem handle_memWrite_of_not_inWindow (h : Platform.inWindow s.platform a.toNat = false) :
    handle (.memWrite a v) s = .next (answer .done { s with mem := Memory.write s.mem a.toNat v }) := by
  simp only [handle, otherWrite, h, Bool.false_eq_true, if_false]

theorem handle_memRead_of_not_inWindow (h : Platform.inWindow s.platform a.toNat = false) :
    handle (.memRead a) s = .next (answer (.memByte (byteAt s a.toNat)) s) := by
  simp only [handle, otherRead, h, Bool.false_eq_true, if_false]

end

/-! ## The frame of a command -/

section
variable {i : Instr} {s t : State}

/-- A command without a destination window leaves the memory as it was. -/
theorem Ended.mem_of_no_window (h : Ended i s t) (hw : windowLength i s = none) :
    t.mem = s.mem ∧ t.draws = s.draws := by
  cases h with
  | rejected e => exact ⟨rfl, rfl⟩
  | done result pads m _ _ _ hm =>
    obtain ⟨-, rfl⟩ | ⟨hw', -⟩ := hm
    · exact ⟨rfl, rfl⟩
    · exact absurd (hw.symm.trans hw') (by simp)
  | spoiled out g e hw' => exact absurd (hw.symm.trans hw') (by simp)

/-- A command with a destination window changes only bytes of it that answer. -/
theorem Ended.byteAt_outside_window (h : Ended i s t) {out : Nat} (hw : windowLength i s = some out) {a : Nat}
    (ha : ¬(s.dstAddr.toNat ≤ a ∧ a < s.dstAddr.toNat + out ∧ Platform.accessible s.platform a = true)) :
    byteAt t a = byteAt s a := by
  cases h with
  | rejected e _ _ hw' => exact absurd (hw'.symm.trans hw) (by simp)
  | done result pads m _ _ _ hm =>
    obtain ⟨hw', -⟩ | ⟨hw', hframe⟩ := hm
    · exact absurd (hw'.symm.trans hw) (by simp)
    · obtain rfl : out = result := Option.some.inj (hw.symm.trans hw')
      exact hframe a ha
  | spoiled out' g e hw' =>
    obtain rfl : out = out' := Option.some.inj (hw.symm.trans hw')
    exact (read_drawBytes _ _ _ _ _ _).trans (if_neg ha)

/-- A destination window has passed the destination checks. -/
theorem dstUsable_of_windowLength {out : Nat} (hw : windowLength i s = some out) : DstUsable (operands s) out := by
  cases i with
  | encBulk =>
    obtain ⟨-, hd, rfl⟩ := checkArgs_eq_ok.mp (windowLength_encBulk.mp hw)
    exact hd
  | encBound =>
    obtain ⟨-, hd, rfl⟩ := checkArgs_eq_ok.mp (windowLength_encBound.mp hw)
    exact hd
  | decBulk =>
    obtain ⟨-, hd, rfl⟩ := checkArgs_eq_ok.mp (windowLength_decBulk.mp hw)
    exact hd
  | decBound =>
    cases hp : decBoundPrepare s with
    | error e => simp [windowLength_none_of_error (i := .decBound) hp] at hw
    | ok g =>
      obtain rfl : g.out = out := by simpa [windowLength, hp, Except.toOption] using hw
      obtain ⟨-, -, -, -, hd⟩ := decBoundPrepare_eq_ok.mp hp
      exact hd
  | decSize => exact absurd hw (by simp [windowLength])

/-- The destination checks keep the two windows apart, so a command leaves its source as it was. -/
theorem Ended.source_kept (h : Ended i s t) {a : Nat} (h1 : s.srcAddr.toNat ≤ a)
    (h2 : a < s.srcAddr.toNat + s.srcLen.toNat) : byteAt t a = byteAt s a := by
  cases hw : windowLength i s with
  | none => rw [byteAt, (h.mem_of_no_window hw).1]
  | some out =>
    obtain ⟨-, -, -, hapart⟩ := dstUsable_of_windowLength hw
    simp only [operands_src, operands_len, operands_dst] at hapart
    exact h.byteAt_outside_window hw (by omega)

end

/-! ## A successful command repeated -/

/-- What a repetition has to leave as it was for the state to be the same: the outcome, the draws and every byte. -/
structure SameResult (s t : State) : Prop where
  outcome : SameOutcome s t
  draws : t.draws = s.draws
  byte : ∀ a, byteAt t a = byteAt s a

theorem Ended.eq_of_sameResult {i : Instr} {s t : State} (h : Ended i s t) (hwf : Memory.wf s.mem = true)
    (hr : SameResult s t) : t = s := by
  obtain ⟨⟨hstatus, hresult, hgroup⟩, hdraws, hbyte⟩ := hr
  exact state_ext_of_sameInputs h.sameInputs (Memory.ext (h.inv hwf).mem hwf hbyte) hdraws hstatus hresult hgroup

section
variable {src len j : Nat} {m m' : Memory}

theorem encBytes_congr (h : ∀ a, src ≤ a → a < src + len → Memory.read m' a = Memory.read m a)
    (hj : 3 * j + 3 ≤ len) : encBytes src j m' = encBytes src j m := by
  simp only [encBytes]
  rw [h _ (by omega) (by omega), h _ (by omega) (by omega), h _ (by omega) (by omega)]

theorem decBytes_congr (h : ∀ a, src ≤ a → a < src + len → Memory.read m' a = Memory.read m a)
    (hj : 4 * j + 4 ≤ len) : decBytes src j m' = decBytes src j m := by
  simp only [decBytes]
  rw [h _ (by omega) (by omega), h _ (by omega) (by omega), h _ (by omega) (by omega), h _ (by omega) (by omega)]

end

/-- A loop that writes its groups as they stood changes no byte. -/
theorem SameButGroups.read_eq_of_groups {dst w q : Nat} (hw : 0 < w) {m m' : Memory}
    (h : SameButGroups dst w 0 q m m')
    (hg : ∀ j k, j < q → k < w → Memory.read m' (dst + w * j + k) = Memory.read m (dst + w * j + k)) (a : Nat) :
    Memory.read m' a = Memory.read m a := by
  by_cases hin : dst ≤ a ∧ a < dst + w * q
  · have ha : a = dst + w * ((a - dst) / w) + (a - dst) % w := by
      have := Nat.div_add_mod (a - dst) w
      omega
    rw [ha]
    exact hg _ _ (Nat.div_lt_of_lt_mul (by omega)) (Nat.mod_lt _ hw)
  · exact h a (by simpa using hin)

/-- Writing the same bytes again changes none. -/
theorem Memory.read_writeSeq_twice (m : Memory) (a : Nat) (bytes : List Byte) (b : Nat) :
    Memory.read (Memory.writeSeq (Memory.writeSeq m a bytes) a bytes) b = Memory.read (Memory.writeSeq m a bytes) b := by
  rw [Memory.read_writeSeq]
  split
  · next h => rw [Memory.read_writeSeq, if_pos h]
  · rfl

/-- The four characters that `ENC_BOUND` writes. -/
abbrev encBoundBytes (s : State) : List Byte :=
  boundChars s.srcLen.toNat (byteAt s s.srcAddr.toNat)
    (if s.srcLen.toNat = 2 then byteAt s (s.srcAddr.toNat + 1) else 0x00)

/-- `ENC_BOUND` on usable operands whose windows answer. -/
theorem encBound_eq_finish {s : State} (hs : SrcUsable (operands s) .bound3) (hD : DstUsable (operands s) 4)
    (ha : Answers s.platform s.srcAddr.toNat s.srcLen.toNat) (hd : Answers s.platform s.dstAddr.toNat 4) :
    encBound s = finish 4 (3 - s.srcLen.toNat)
      { s with mem := Memory.writeSeq s.mem s.dstAddr.toNat (encBoundBytes s) } := by
  rw [encBound_of_usable hs hD]
  have hn : s.srcLen.toNat = 1 ∨ s.srcLen.toNat = 2 := hs.2.1
  simp only [encBoundRun, operands_src, operands_dst, operands_len, encodeTail_eq hn, if_pos (And.intro ha hd),
    conclude_ok]

/-- The pad count of the four characters at the source. -/
abbrev tailPads (s : State) : Nat := padCount (byteAt s (s.srcAddr.toNat + 2)) (byteAt s (s.srcAddr.toNat + 3))

/-- The bytes of the final group at the source, none when it is malformed. -/
abbrev decBoundBytes (s : State) : Option (List Byte) :=
  tailBytes (byteAt s s.srcAddr.toNat) (byteAt s (s.srcAddr.toNat + 1)) (byteAt s (s.srcAddr.toNat + 2))
    (byteAt s (s.srcAddr.toNat + 3))

/-- `DEC_BOUND` on usable operands whose windows answer and a well-formed group. -/
theorem decBound_eq_finish {s : State} {bytes : List Byte} (hs : SrcUsable (operands s) .bound4)
    (ha : Answers s.platform s.srcAddr.toNat 4) (hD : DstUsable (operands s) (3 - tailPads s))
    (hd : Answers s.platform s.dstAddr.toNat (3 - tailPads s)) (hb : decBoundBytes s = some bytes) :
    decBound s = finish (3 - tailPads s) (tailPads s)
      { s with mem := Memory.writeSeq s.mem s.dstAddr.toNat bytes } := by
  rw [decBound_of_usable hs ha hD]
  simp only [decBoundRun, hb, operands_dst]
  rw [memWriteSeq_of_answers (by rw [tailBytes_length hb]; exact hd)]
  rfl

/-- The pad count of the last two characters at the source. -/
abbrev sizePads (s : State) : Nat :=
  padCount (byteAt s (s.srcAddr.toNat + s.srcLen.toNat - 2)) (byteAt s (s.srcAddr.toNat + s.srcLen.toNat - 1))

/-- `DEC_SIZE` on a usable source whose last two characters answer. -/
theorem decSize_eq_finish {s : State} (hs : SrcUsable (operands s) .size4)
    (h2 : Platform.accessible s.platform (s.srcAddr.toNat + s.srcLen.toNat - 2) = true)
    (h1 : Platform.accessible s.platform (s.srcAddr.toNat + s.srcLen.toNat - 1) = true) :
    decSize s = finish (decodedSize s.srcLen.toNat (sizePads s)) (sizePads s) s := by
  simp only [decSize, checkSrc_eq_none.mpr hs, readLastTwo_eq_some.mpr ⟨h2, h1, rfl, rfl⟩, operands_len]

section
variable {s t : State}
  (h : ∀ a, s.srcAddr.toNat ≤ a → a < s.srcAddr.toNat + s.srcLen.toNat → byteAt t a = byteAt s a)
include h

theorem encBoundBytes_congr (haddr : t.srcAddr = s.srcAddr) (hlen : t.srcLen = s.srcLen)
    (hn : 1 ≤ s.srcLen.toNat) : encBoundBytes t = encBoundBytes s := by
  simp only [encBoundBytes, haddr, hlen]
  rw [h _ (by omega) (by omega)]
  split
  · rw [h _ (by omega) (by omega)]
  · rfl

theorem tailPads_congr (haddr : t.srcAddr = s.srcAddr) (hn : s.srcLen.toNat = 4) : tailPads t = tailPads s := by
  simp only [tailPads, haddr]
  rw [h _ (by omega) (by omega), h _ (by omega) (by omega)]

theorem decBoundBytes_congr (haddr : t.srcAddr = s.srcAddr) (hn : s.srcLen.toNat = 4) :
    decBoundBytes t = decBoundBytes s := by
  simp only [decBoundBytes, haddr]
  rw [h _ (by omega) (by omega), h _ (by omega) (by omega), h _ (by omega) (by omega), h _ (by omega) (by omega)]

end

/-- Two runs that write the same bytes at the same place leave the same. -/
theorem SameResult.of_rewritten {s t u : State} {result pads : Nat} {bytes : List Byte}
    (ht : t = finish result pads { s with mem := Memory.writeSeq s.mem s.dstAddr.toNat bytes })
    (hu : u = finish result pads { t with mem := Memory.writeSeq t.mem t.dstAddr.toNat bytes }) : SameResult t u := by
  subst hu ht
  exact ⟨⟨rfl, rfl, rfl⟩, rfl, Memory.read_writeSeq_twice _ _ _⟩

theorem encBulk_repeated {s : State} (hc : codeField (encBulk s).status = 1) :
    SameResult (encBulk s) (encBulk (encBulk s)) := by
  obtain ⟨hs, hD, ha, hd⟩ := encBulk_usable hc
  have hsrc := fun a => (encBulk_ended s).source_kept (a := a)
  obtain ⟨m, ht, -, hout⟩ := encBulk_of_usable hs hD ha hd
  rw [ht] at hsrc ⊢
  obtain ⟨m', hu, hsame, hout'⟩ := encBulk_of_usable (s := finish _ _ { s with mem := m }) hs hD ha hd
  rw [hu]
  refine ⟨⟨rfl, rfl, rfl⟩, rfl, SameButGroups.read_eq_of_groups (q := s.srcLen.toNat / 3) (by omega) hsame ?_⟩
  intro j k hj hk
  have hgroup : encBytes s.srcAddr.toNat j m = encBytes s.srcAddr.toNat j s.mem := encBytes_congr hsrc (by omega)
  calc Memory.read m' (s.dstAddr.toNat + 4 * j + k)
    _ = (encBytes s.srcAddr.toNat j m).getD k 0 := hout' j k hj hk
    _ = (encBytes s.srcAddr.toNat j s.mem).getD k 0 := by rw [hgroup]
    _ = Memory.read m (s.dstAddr.toNat + 4 * j + k) := (hout j k hj hk).symm

theorem decBulk_repeated {s : State} (hc : codeField (decBulk s).status = 1) :
    SameResult (decBulk s) (decBulk (decBulk s)) := by
  obtain ⟨hs, hD, ha, hd, hchars⟩ := decBulk_usable hc
  have hsrc := fun a => (decBulk_ended s).source_kept (a := a)
  obtain ⟨m, ht, -, hout⟩ := decBulk_of_usable hs hD ha hd hchars
  rw [ht] at hsrc ⊢
  have hchars' : ∀ k, k < s.srcLen.toNat → isAlpha (Memory.read m (s.srcAddr.toNat + k)) = true := fun k hk =>
    (congrArg isAlpha (hsrc _ (by omega) (by omega))).trans (hchars k hk)
  obtain ⟨m', hu, hsame, hout'⟩ :=
    decBulk_of_usable (s := finish _ _ { s with mem := m }) hs hD ha hd hchars'
  rw [hu]
  refine ⟨⟨rfl, rfl, rfl⟩, rfl, SameButGroups.read_eq_of_groups (q := s.srcLen.toNat / 4) (by omega) hsame ?_⟩
  intro j k hj hk
  have hgroup : decBytes s.srcAddr.toNat j m = decBytes s.srcAddr.toNat j s.mem := decBytes_congr hsrc (by omega)
  calc Memory.read m' (s.dstAddr.toNat + 3 * j + k)
    _ = ((decBytes s.srcAddr.toNat j m).getD []).getD k 0 := hout' j k hj hk
    _ = ((decBytes s.srcAddr.toNat j s.mem).getD []).getD k 0 := by rw [hgroup]
    _ = Memory.read m (s.dstAddr.toNat + 3 * j + k) := (hout j k hj hk).symm

theorem encBound_repeated {s : State} (hc : codeField (encBound s).status = 1) :
    SameResult (encBound s) (encBound (encBound s)) := by
  obtain ⟨hs, hD, ha, hd⟩ := encBound_usable hc
  have hsrc := fun a => (encBound_ended s).source_kept (a := a)
  have ht := encBound_eq_finish hs hD ha hd
  rw [ht] at hsrc ⊢
  have hn : s.srcLen.toNat = 1 ∨ s.srcLen.toNat = 2 := hs.2.1
  have hbytes := encBoundBytes_congr hsrc rfl rfl (by omega)
  refine SameResult.of_rewritten rfl ?_
  rw [encBound_eq_finish (s := finish _ _ { s with mem := _ }) hs hD ha hd, hbytes]
  rfl

theorem decBound_repeated {s : State} (hc : codeField (decBound s).status = 1) :
    SameResult (decBound s) (decBound (decBound s)) := by
  obtain ⟨hs, ha, hD, hd, hvalid⟩ := decBound_usable hc
  obtain ⟨bytes, hb⟩ := Option.isSome_iff_exists.mp (tailBytes_isSome.mpr hvalid)
  have hsrc := fun a => (decBound_ended s).source_kept (a := a)
  have ht := decBound_eq_finish hs ha hD hd hb
  rw [ht] at hsrc ⊢
  have hn : s.srcLen.toNat = 4 := hs.2.1
  have hpads := tailPads_congr hsrc rfl hn
  have hbytes := (decBoundBytes_congr hsrc rfl hn).trans hb
  refine SameResult.of_rewritten rfl ?_
  rw [decBound_eq_finish (s := finish _ _ { s with mem := _ }) hs ha (by rw [hpads]; exact hD)
    (by rw [hpads]; exact hd) hbytes, hpads]

theorem decSize_repeated {s : State} (hc : codeField (decSize s).status = 1) :
    SameResult (decSize s) (decSize (decSize s)) := by
  obtain ⟨hs, h2, h1⟩ := decSize_usable hc
  rw [decSize_eq_finish hs h2 h1, decSize_eq_finish (s := finish _ _ s) hs h2 h1]
  exact ⟨⟨rfl, rfl, rfl⟩, rfl, fun _ => rfl⟩

/-- A successful command leaves its operands, its source and the answering addresses as they were, so the same command
succeeds again and writes the same bytes. -/
theorem exec_repeated {i : Instr} {s t : State} (h : exec i s = .next t) (hc : codeField t.status = 1) :
    ∃ u, exec i t = .next u ∧ SameResult t u := by
  cases i with
  | encBulk => obtain rfl := Host.Outcome.next.inj h; exact ⟨_, rfl, encBulk_repeated hc⟩
  | encBound => obtain rfl := Host.Outcome.next.inj h; exact ⟨_, rfl, encBound_repeated hc⟩
  | decBulk => obtain rfl := Host.Outcome.next.inj h; exact ⟨_, rfl, decBulk_repeated hc⟩
  | decBound => obtain rfl := Host.Outcome.next.inj h; exact ⟨_, rfl, decBound_repeated hc⟩
  | decSize => obtain rfl := Host.Outcome.next.inj h; exact ⟨_, rfl, decSize_repeated hc⟩

/-! ## The obligations -/

/-- Settles O47: a command ends in one of the ways of `Ended`, and each of them keeps the inputs and the bytes outside the
window. -/
theorem commandsChangeOnlyOutcomeAndWindow : Obligations.CommandsChangeOnlyOutcomeAndWindow := by
  intro i s t h
  have he := exec_ended h
  exact ⟨he.sameInputs, he.mem_of_no_window, fun out hw a ha => he.byteAt_outside_window hw ha⟩

/-- Settles O48: the destination checks keep the source apart from the window, the only bytes that change. -/
theorem sourceWindowIsNeverWritten : Obligations.SourceWindowIsNeverWritten :=
  fun _ _ _ h _ h1 h2 => (exec_ended h).source_kept h1 h2

/-- Settles O54: the repetition has the same result, and in canonical form a memory is what its bytes read as. -/
theorem repeatingSuccessChangesNothing : Obligations.RepeatingSuccessChangesNothing := by
  intro i s t hwf h hc
  obtain ⟨u, hu, hsame⟩ := exec_repeated h hc
  have hwf' : Memory.wf t.mem = true := ((exec_ended h).inv hwf).mem
  rw [hu, (exec_ended hu).eq_of_sameResult hwf' hsame]

/-- Settles O17: outside a shared register window the write is one write of the memory. -/
theorem otherAgentsWriteOneByte : Obligations.OtherAgentsWriteOneByte := by
  intro s a v rest hp hw
  refine ⟨_, (step_of_pending hp).trans (handle_memWrite_of_not_inWindow hw), fun b => ?_, fun r => ?_, rfl, rfl, rfl⟩
  · exact Memory.read_write s.mem a.toNat v b
  · cases r <;> rfl

/-- Settles O18: outside a shared register window the read answers the byte it names. -/
theorem otherAgentsReadWithoutEffect : Obligations.OtherAgentsReadWithoutEffect := by
  intro s a rest hp hw
  exact (step_of_pending hp).trans (handle_memRead_of_not_inWindow hw)

/-- Settles O19: a step with no event is idle. -/
theorem idleUnitChangesNothing : Obligations.IdleUnitChangesNothing := fun _ => step_of_no_event

end Sys2Proof.Machine

/-! PROOFS. The command words (30_encoding.md): which word selects which command, and what a write of any word to `CMD`
runs. -/

namespace Sys2Proof

/-! ## A word and its two fields -/

/-- `RSVD` above `OP` is the whole word (30_encoding.md R91). -/
theorem rsvdField_append_opField (w : Word) : rsvdField w ++ opField w = w := by
  simp only [rsvdField, opField]
  exact (BitVec.extractLsb'_append_extractLsb'_eq_extractLsb' rfl).trans BitVec.extractLsb'_eq_self

theorem encodingLegal (i : Instr) : Laws.EncodingLegal.Statement i := by
  cases i with
  | encBulk => exact Laws.EncodingLegal.encBulk
  | encBound => exact Laws.EncodingLegal.encBound
  | decBulk => exact Laws.EncodingLegal.decBulk
  | decBound => exact Laws.EncodingLegal.decBound
  | decSize => exact Laws.EncodingLegal.decSize

theorem eq_encode_of_fields {w : Word} {i : Instr} (hrsvd : rsvdField w = 0) (hop : opField w = opcode i) :
    w = encode i := by
  rw [← rsvdField_append_opField w, hrsvd, hop, encode]

theorem encode_toNat (i : Instr) : (encode i).toNat = (opcode i).toNat := by cases i <;> rfl

/-! ## What the decoder accepts -/

theorem decode_encode (i : Instr) : decode (encode i) = .ok i := by cases i <;> rfl

/-- The decoder answers a command only where `RSVD` is 0 and `OP` is that command's code. -/
theorem eq_encode_of_decode {w : Word} {i : Instr} (h : decode w = .ok i) : w = encode i := by
  unfold decode at h
  split_ifs at h with hrsvd h1 h2 h3 h4 h5 <;> obtain rfl := Except.ok.inj h
  · exact eq_encode_of_fields (not_not.mp hrsvd) h1
  · exact eq_encode_of_fields (not_not.mp hrsvd) h2
  · exact eq_encode_of_fields (not_not.mp hrsvd) h3
  · exact eq_encode_of_fields (not_not.mp hrsvd) h4
  · exact eq_encode_of_fields (not_not.mp hrsvd) h5

theorem decode_eq_ok_iff {w : Word} {i : Instr} : decode w = .ok i ↔ w = encode i :=
  ⟨eq_encode_of_decode, fun h => h ▸ decode_encode i⟩

theorem decode_of_toNat {w : Word} {i : Instr} (h : w.toNat = (opcode i).toNat) : decode w = .ok i :=
  decode_eq_ok_iff.mpr (BitVec.eq_of_toNat_eq (h.trans (encode_toNat i).symm))

/-- The legal words are 1 to 5 (30_encoding.md R97). -/
theorem CommandWord.legal_iff {w : Word} : CommandWord.legal w = true ↔ 1 ≤ w.toNat ∧ w.toNat ≤ 5 := by
  simp only [CommandWord.legal, CommandWord.rsvdZero, CommandWord.opAssigned, Bool.and_eq_true, decide_eq_true_eq]
  omega

theorem exists_decode_iff_legal {w : Word} : (∃ i, decode w = .ok i) ↔ CommandWord.legal w = true := by
  constructor
  · rintro ⟨i, h⟩
    rw [eq_encode_of_decode h]
    exact (encodingLegal i).1
  · intro h
    obtain h1 | h2 | h3 | h4 | h5 : w.toNat = 1 ∨ w.toNat = 2 ∨ w.toNat = 3 ∨ w.toNat = 4 ∨ w.toNat = 5 := by
      have := CommandWord.legal_iff.mp h
      omega
    · exact ⟨.encBulk, decode_of_toNat h1⟩
    · exact ⟨.encBound, decode_of_toNat h2⟩
    · exact ⟨.decBulk, decode_of_toNat h3⟩
    · exact ⟨.decBound, decode_of_toNat h4⟩
    · exact ⟨.decSize, decode_of_toNat h5⟩

namespace Machine

/-! ## What a write to `CMD` runs -/

theorem execute_of_toNat {w : Word} {i : Instr} (h : w.toNat = (opcode i).toNat) (s : State) :
    execute w s = exec i s :=
  execute_of_decode (decode_of_toNat h) s

/-- A word outside 1 to 5 ends `ILLEGAL_COMMAND` and touches the outcome registers only (30_encoding.md R96). -/
theorem execute_of_illegal {w : Word} (h : ¬(1 ≤ w.toNat ∧ w.toNat ≤ 5)) (s : State) :
    execute w s = .next { s with status := 4, result := 0, errGroup := 0 } := by
  cases hd : decode w with
  | ok i => exact absurd (CommandWord.legal_iff.mp (exists_decode_iff_legal.mp ⟨i, hd⟩)) h
  | error e =>
    simp only [execute, hd]
    rfl

/-! ## The obligations -/

/-- Settles O3: the decoder undoes the encoder and accepts nothing else; the legal words are the five encodings. -/
theorem decodeAcceptsExactlyTheEncodings : Obligations.DecodeAcceptsExactlyTheEncodings :=
  ⟨fun _ _ => decode_eq_ok_iff, fun _ => ⟨exists_decode_iff_legal, CommandWord.legal_iff⟩⟩

/-- Settles O4: the write stores the word and executes it, and the word's value says what that runs. -/
theorem hostWriteToCmdExecutesEveryWord : Obligations.HostWriteToCmdExecutesEveryWord := by
  intro w s
  have ht : target s.platform (.window 0x14) 32 = .register .cmd :=
    target_register (offset?_window (by decide) _) rfl
  have hwrite : hostWrite (.window 0x14) 32 w s = execute w { s with cmd := w, response := .done } :=
    handle_hostWrite_cmd (addr := .window 0x14) ht
  rw [hwrite]
  split_ifs with h1 h2 h3 h4 h5
  · exact execute_of_toNat (i := .encBulk) h1 _
  · exact execute_of_toNat (i := .encBound) h2 _
  · exact execute_of_toNat (i := .decBulk) h3 _
  · exact execute_of_toNat (i := .decBound) h4 _
  · exact execute_of_toNat (i := .decSize) h5 _
  · exact execute_of_illegal (by omega) _

/-- Settles O6: `RSVD` not 0 or `OP` not assigned puts the word outside 1 to 5. -/
theorem stepOnIllegalWord : Obligations.StepOnIllegalWord := by
  intro s addr w rest hp ho hw
  have ht : target s.platform addr 32 = .register .cmd := target_register ho rfl
  calc step s = handle (.hostWrite addr 32 w) { s with pending := rest } := step_of_pending hp
    _ = execute w { s with pending := rest, cmd := w, response := .done } := handle_hostWrite_cmd ht
    _ = _ := execute_of_illegal (by omega) _

/-- Settles O1: the five words are the encodings; 0, 6 and 0x11 are closed cases of the decoder. -/
theorem commandWordsDecodeAsTabled : Obligations.CommandWordsDecodeAsTabled :=
  ⟨decode_encode .encBulk, decode_encode .encBound, decode_encode .decBulk, decode_encode .decBound,
    decode_encode .decSize, by decide, by decide, by decide⟩

/-- Settles O2: every command is well formed, so this is `decode_encode`. -/
theorem decodeOfEncodeIsTheCommand : Obligations.DecodeOfEncodeIsTheCommand := fun i _ => decode_encode i

end Machine
end Sys2Proof

/-! PROOFS. The alphabet table and its inverse (40_alphabet.md): the table by its ranges, and how many bytes fall into each
class. -/

namespace Sys2Proof.Machine

/-! ## The table -/

/-- Settles O21: the table has 64 entries, each compared with its range's value. -/
theorem tableFollowsItsRanges : Obligations.TableFollowsItsRanges := by
  unfold Obligations.TableFollowsItsRanges
  decide

/-! ## The three classes of bytes -/

theorem index_T (k : Sextet) : index (T k) = .sextet k := alphaIndex_eq_some.mp (alphaIndex_T k)

/-- Each range of `Index` undoes the same range of the table. -/
theorem T_of_index {c : Byte} {k : Sextet} (h : index c = .sextet k) : T k = c := by
  apply BitVec.eq_of_toNat_eq
  rw [tableFollowsItsRanges k]
  unfold index at h
  split_ifs at h <;> cases h
  · rw [BitVec.toNat_ofNat]
    split_ifs <;> omega
  · rw [BitVec.toNat_ofNat]
    split_ifs <;> omega
  · rw [BitVec.toNat_ofNat]
    split_ifs <;> omega
  · exact Eq.symm ‹c.toNat = 0x2B›
  · exact Eq.symm ‹c.toNat = 0x2F›

theorem index_pad : index pad = .padding := by decide

theorem index_eq_padding_iff {c : Byte} : index c = .padding ↔ c = pad := by
  refine ⟨fun h => ?_, fun h => h ▸ index_pad⟩
  unfold index at h
  split_ifs at h with _ _ _ _ _ hc
  exact BitVec.eq_of_toNat_eq hc

theorem index_ne_invalid_iff {c : Byte} : index c ≠ .invalid ↔ c = pad ∨ isAlpha c = true := by
  rw [← index_eq_padding_iff, isAlpha_iff]
  cases index c <;> simp

/-! ## How many bytes each class holds -/

/-- The bytes of the table's entries, in the table's order. -/
def tableBytes : List Nat := (List.finRange 64).map fun i => (T (.ofFin i)).toNat

theorem mem_tableBytes {n : Nat} : n ∈ tableBytes ↔ ∃ k : Sextet, (T k).toNat = n := by
  simp only [tableBytes, List.mem_map, List.mem_finRange, true_and]
  exact ⟨fun ⟨i, h⟩ => ⟨.ofFin i, h⟩, fun ⟨k, h⟩ => ⟨k.toFin, h⟩⟩

theorem lt_of_mem_tableBytes {n : Nat} (h : n ∈ tableBytes) : n < 256 := by
  obtain ⟨k, rfl⟩ := mem_tableBytes.mp h
  exact (T k).isLt

theorem pad_notMem_tableBytes : pad.toNat ∉ tableBytes := fun h =>
  let ⟨k, hk⟩ := mem_tableBytes.mp h
  T_ne_pad k (BitVec.eq_of_toNat_eq hk)

theorem nodup_tableBytes : tableBytes.Nodup := by
  refine (List.nodup_finRange 64).map fun i j h => ?_
  exact BitVec.ofFin.inj (T_injective (BitVec.eq_of_toNat_eq h))

theorem length_tableBytes : tableBytes.length = 64 := by simp [tableBytes]

/-- As `Index` and `T` are inverse, the bytes that have a sextet are those of the table. -/
theorem mem_tableBytes_iff_isAlpha {n : Nat} (hn : n < 256) :
    n ∈ tableBytes ↔ isAlpha (BitVec.ofNat 8 n) = true := by
  rw [mem_tableBytes, isAlpha_iff]
  refine exists_congr fun k => ⟨?_, fun h => ?_⟩
  · rintro rfl
    rw [BitVec.ofNat_toNat, BitVec.setWidth_eq, index_T]
  · rw [T_of_index h, BitVec.toNat_ofNat, Nat.mod_eq_of_lt hn]

/-- Counting by a listing: both classes below are counted by a list of their bytes, not by evaluating 256 cases. -/
theorem length_filter_range_of_mem_iff {p : Nat → Bool} {l : List Nat} {b : Nat} (hl : l.Nodup) (hb : ∀ n ∈ l, n < b)
    (h : ∀ n, n < b → (n ∈ l ↔ p n = true)) : ((List.range b).filter p).length = l.length := by
  refine List.Perm.length_eq ((List.perm_ext_iff_of_nodup (List.nodup_range.filter p) hl).mpr fun n => ?_)
  rw [List.mem_filter, List.mem_range]
  exact ⟨fun ⟨hn, hp⟩ => (h n hn).mpr hp, fun hm => ⟨hb n hm, (h n (hb n hm)).mp hm⟩⟩

theorem count_isAlpha : ((List.range 256).filter fun n => isAlpha (BitVec.ofNat 8 n)).length = 64 :=
  (length_filter_range_of_mem_iff nodup_tableBytes (fun _ => lt_of_mem_tableBytes)
    fun _ => mem_tableBytes_iff_isAlpha).trans length_tableBytes

/-- The bytes that are not invalid are `PAD` and those of the table. -/
theorem count_not_invalid :
    ((List.range 256).filter fun n => !decide (index (BitVec.ofNat 8 n) = .invalid)).length = 65 := by
  have hlt : ∀ n ∈ pad.toNat :: tableBytes, n < 256 :=
    List.forall_mem_cons.mpr ⟨pad.isLt, fun _ => lt_of_mem_tableBytes⟩
  have hnodup : (pad.toNat :: tableBytes).Nodup := List.nodup_cons.mpr ⟨pad_notMem_tableBytes, nodup_tableBytes⟩
  rw [length_filter_range_of_mem_iff hnodup hlt, List.length_cons, length_tableBytes]
  intro n hn
  have hpad : n = pad.toNat ↔ BitVec.ofNat 8 n = pad := by
    rw [← BitVec.toNat_inj, BitVec.toNat_ofNat, Nat.mod_eq_of_lt hn]
  rw [List.mem_cons, mem_tableBytes_iff_isAlpha hn, hpad, ← index_ne_invalid_iff]
  simp

/-- All 256 bytes but the 65 that are not invalid. -/
theorem count_invalid :
    ((List.range 256).filter fun n => decide (index (BitVec.ofNat 8 n) = .invalid)).length = 191 := by
  have hsplit := List.length_eq_length_filter_add (l := List.range 256)
    fun n => decide (index (BitVec.ofNat 8 n) = .invalid)
  rw [count_not_invalid, List.length_range] at hsplit
  omega

/-- Settles O22: the ranges of `Index` and `T` undo each other, so the 64 table entries are the bytes with a sextet; `PAD`
is one more, and the rest is invalid. -/
theorem indexIsTheInverseOfTheTable : Obligations.IndexIsTheInverseOfTheTable :=
  ⟨index_T, fun _ _ => T_of_index, count_isAlpha, fun _ => index_eq_padding_iff, count_invalid⟩

end Sys2Proof.Machine

/-! PROOFS. The encode commands (41_encode.md): `Enc3` by its formulas and as a cut of bits, and what `ENC_BULK` and
`ENC_BOUND` write when they complete and leave when a byte does not answer. -/

namespace Sys2Proof.Machine

/-! ## `Enc3` -/

/-- The sextets by the formulas of 41_encode.md R130 on naturals, which need no truncation. -/
theorem encS0_toNat_bits (b0 : Byte) : (encS0 b0).toNat = b0.toNat >>> 2 := by
  rw [encS0_toNat, Nat.shiftRight_eq_div_pow]

theorem encS1_toNat_bits (b0 b1 : Byte) : (encS1 b0 b1).toNat = ((b0.toNat &&& 0x03) <<< 4 ||| b1.toNat >>> 4) := by
  rw [encS1_toNat, sextet1_nat b1.isLt]

theorem encS2_toNat_bits (b1 b2 : Byte) : (encS2 b1 b2).toNat = ((b1.toNat &&& 0x0F) <<< 2 ||| b2.toNat >>> 6) := by
  rw [encS2_toNat, sextet2_nat b2.isLt]

theorem encS3_toNat_bits (b2 : Byte) : (encS3 b2).toNat = b2.toNat &&& 0x3F := by
  rw [encS3_toNat, and_sixtyThree]

/-- The cut of the 24-bit group into sextets (41_encode.md R130). -/
theorem extractLsb'_group (b0 b1 b2 : Byte) :
    (b0 ++ b1 ++ b2).extractLsb' 18 6 = encS0 b0 ∧ (b0 ++ b1 ++ b2).extractLsb' 12 6 = encS1 b0 b1 ∧
    (b0 ++ b1 ++ b2).extractLsb' 6 6 = encS2 b1 b2 ∧ (b0 ++ b1 ++ b2).extractLsb' 0 6 = encS3 b2 := by
  have h0 := b0.isLt
  have h1 := b1.isLt
  have h2 := b2.isLt
  refine ⟨?_, ?_, ?_, ?_⟩ <;> apply BitVec.eq_of_toNat_eq <;>
    rw [BitVec.extractLsb'_toNat, append_three_toNat, Nat.shiftRight_eq_div_pow]
  · rw [encS0_toNat]; omega
  · rw [encS1_toNat]; omega
  · rw [encS2_toNat]; omega
  · rw [encS3_toNat]; omega

/-- Settles O23: the naturals of the formulas are the values of the sextets, and so are the cuts of the group. -/
theorem enc3FollowsFormulasAndBitCut : Obligations.Enc3FollowsFormulasAndBitCut := by
  refine ⟨fun b0 b1 b2 => ?_, by decide⟩
  obtain ⟨hcut0, hcut1, hcut2, hcut3⟩ := extractLsb'_group b0 b1 b2
  rw [hcut0, hcut1, hcut2, hcut3,
    ← encS0_toNat_bits, ← encS1_toNat_bits, ← encS2_toNat_bits, ← encS3_toNat_bits]
  simp only [BitVec.ofNat_toNat, BitVec.setWidth_eq]
  exact ⟨(encS0 b0).isLt, (encS1 b0 b1).isLt, (encS2 b1 b2).isLt, (encS3 b2).isLt, rfl, rfl⟩

/-! ## How an encode command ends -/

/-- An output length that fits the capacity register fits `RESULT`. -/
theorem out_lt_of_dstUsable {s : State} {out : Nat} (h : DstUsable (operands s) out) : out < 2 ^ 32 := by
  obtain ⟨-, hcap, -, -⟩ := h
  exact Nat.lt_of_le_of_lt hcap s.dstCap.isLt

/-- `ENC_BULK` ends at its first group `f` with a byte that does not answer. -/
theorem encBulk_of_first_failure {s : State} {f : Nat} (hs : SrcUsable (operands s) .bulk3)
    (hD : DstUsable (operands s) (4 * (s.srcLen.toNat / 3))) (hf : f < s.srcLen.toNat / 3)
    (hpre : ∀ g, g < f → Answers s.platform (s.srcAddr.toNat + 3 * g) 3 ∧
      Answers s.platform (s.dstAddr.toNat + 4 * g) 4)
    (hfail : ¬(Answers s.platform (s.srcAddr.toNat + 3 * f) 3 ∧ Answers s.platform (s.dstAddr.toNat + 4 * f) 4)) :
    encBulk s = raise (.busError f) (drawWindow (4 * (s.srcLen.toNat / 3)) s) := by
  have hprepare : encBulkPrepare s = .ok (4 * (s.srcLen.toNat / 3)) := checkArgs_eq_ok.mpr ⟨hs, hD, rfl⟩
  have hloop : forGroups (encodeGroup s.platform s.srcAddr.toNat s.dstAddr.toNat) (s.srcLen.toNat / 3) 0 s.mem =
      .error (.busError f) := by
    refine forGroups_error (dst := s.dstAddr.toNat) (w := 4)
      (out := fun j k => (encBytes s.srcAddr.toNat j s.mem).getD k 0) (Nat.zero_le f) (by omega)
      (fun j m _ hj hm => ?_) fun m _ => ?_
    · exact encodeGroup_reached rfl hD (by omega) (hpre j hj).1 (hpre j hj).2 hm
    · rw [encodeGroup_eq, if_neg hfail]
  simp only [encBulk, hprepare, operands_src, operands_dst, operands_len, hloop, conclude_error]

/-- `ENC_BOUND` when a byte it accesses does not answer. -/
theorem encBound_of_not_answers {s : State} (hs : SrcUsable (operands s) .bound3) (hD : DstUsable (operands s) 4)
    (hfail : ¬(Answers s.platform s.srcAddr.toNat s.srcLen.toNat ∧ Answers s.platform s.dstAddr.toNat 4)) :
    encBound s = raise (.busError 0) (drawWindow 4 s) := by
  have hn : s.srcLen.toNat = 1 ∨ s.srcLen.toNat = 2 := hs.2.1
  rw [encBound_of_usable hs hD]
  simp only [encBoundRun, operands_src, operands_dst, operands_len, encodeTail_eq hn, if_neg hfail, conclude_error]

/-! ## What a completed encode command has written -/

theorem isAlpha_enc3_getD (b0 b1 b2 : Byte) {k : Nat} (hk : k < 4) : isAlpha ((enc3 b0 b1 b2).getD k 0) = true := by
  obtain ⟨x, hx⟩ := enc3_getD b0 b1 b2 hk
  rw [hx, isAlpha_T]

/-- The characters that `ENC_BOUND` leaves at its destination: `PAD` after the first `n + 1` characters of `Enc3` of the
bytes it has, zero for each it lacks (41_encode.md R133). -/
theorem read_writeSeq_encBoundBytes {s : State} (hn : s.srcLen.toNat = 1 ∨ s.srcLen.toNat = 2) (m : Memory) (a : Nat)
    {k : Nat} (hk : k < 4) :
    Memory.read (Memory.writeSeq m a (encBoundBytes s)) (a + k) =
      if k ≤ s.srcLen.toNat then
        (enc3 (byteAt s s.srcAddr.toNat) (if s.srcLen.toNat = 2 then byteAt s (s.srcAddr.toNat + 1) else 0) 0).getD k 0
      else pad := by
  rw [Memory.read_writeSeq, boundChars_length, if_pos (by omega), Nat.add_sub_cancel_left]
  exact boundChars_getD hn _ _ hk

/-! ## The obligations -/

/-- Settles O29: every group is written, and the loop changes nothing else. -/
theorem encBulkCompletes : Obligations.EncBulkCompletes := by
  intro s hs hD ha hd
  obtain ⟨m, hm, hsame, hout⟩ := encBulk_of_usable hs hD ha hd
  refine ⟨encBulk s, rfl, ?_, ?_, ?_, (encBulk_ended s).sameInputs, ?_⟩ <;> rw [hm]
  · exact finish_outcome (out_lt_of_dstUsable hD) (by decide) _
  · exact hout
  · exact hsame
  · exact finish_draws _ _ _

/-- Settles O30: `OK` means that the command was usable and so has written every group; a group's characters are entries
of the table. -/
theorem encBulkOutputLaw : Obligations.EncBulkOutputLaw := by
  intro s t ht hc g k hg hk
  obtain rfl : encBulk s = t := Host.Outcome.next.inj ht
  obtain ⟨hs, hD, ha, hd⟩ := encBulk_usable hc
  obtain ⟨t, ht, -, hout, -⟩ := encBulkCompletes s hs hD ha hd
  obtain rfl : encBulk s = t := Host.Outcome.next.inj ht
  have halpha := isAlpha_enc3_getD (byteAt s (s.srcAddr.toNat + 3 * g)) (byteAt s (s.srcAddr.toNat + 3 * g + 1))
    (byteAt s (s.srcAddr.toNat + 3 * g + 2)) hk
  rw [hout g k hg hk]
  exact ⟨rfl, halpha, ne_pad_of_isAlpha halpha⟩

/-- Settles O31: the groups before `f` are written, group `f` fails, and the failure spoils the window. -/
theorem encBulkBusErrorAtFirstGroup : Obligations.EncBulkBusErrorAtFirstGroup := by
  intro s f hs hD hf hpre hfail
  refine ⟨encBulk s, rfl, ?_⟩
  rw [encBulk_of_first_failure hs hD hf hpre hfail]
  have hgroup : f < 2 ^ 32 := by
    have := s.srcLen.isLt
    omega
  exact spoiledAs_raise (e := .busError f) rfl hgroup

/-- Settles O32: the command writes its four characters, and nothing else changes. -/
theorem encBoundCompletes : Obligations.EncBoundCompletes := by
  intro s hs hD ha hd
  have hn : s.srcLen.toNat = 1 ∨ s.srcLen.toNat = 2 := hs.2.1
  refine ⟨encBound s, rfl, ?_, ?_, ?_, (encBound_ended s).sameInputs, ?_⟩ <;> rw [encBound_eq_finish hs hD ha hd]
  · exact finish_outcome (by decide) (by omega) _
  · exact fun k hk => read_writeSeq_encBoundBytes hn _ _ hk
  · intro a hout
    rw [finish_mem, Memory.read_writeSeq, boundChars_length, if_neg hout]
  · exact finish_draws _ _ _

/-- Settles O33: `OK` means that the command was usable and so has written its characters; the last one of the alphabet
is the second of `Enc3` (`n = 1`) or the third (`n = 2`), its low bits those of a zero byte. -/
theorem encBoundOutputLaw : Obligations.EncBoundOutputLaw := by
  intro s t ht hc
  obtain rfl : encBound s = t := Host.Outcome.next.inj ht
  obtain ⟨hs, hD, ha, hd⟩ := encBound_usable hc
  obtain ⟨t, ht, -, hout, -⟩ := encBoundCompletes s hs hD ha hd
  obtain rfl : encBound s = t := Host.Outcome.next.inj ht
  have hn : s.srcLen.toNat = 1 ∨ s.srcLen.toNat = 2 := hs.2.1
  refine ⟨hn, fun k hk => ?_, fun k hk hk4 => ?_, ?_⟩
  · rw [hout k (by omega), if_pos hk]
    exact isAlpha_enc3_getD _ _ _ (by omega)
  · rw [hout k hk4, if_neg (by omega)]
  · rw [hout _ (by omega), if_pos le_rfl]
    obtain h1 | h2 := hn
    · rw [h1]
      exact ⟨_, index_T _, fun _ => encS1_toNat _ 0, fun h => absurd h (by decide)⟩
    · rw [h2]
      exact ⟨_, index_T _, fun h => absurd h (by decide), fun _ => encS2_toNat _ 0⟩

/-- Settles O34: with its checks passed the command fails in its one group. -/
theorem encBoundBusError : Obligations.EncBoundBusError := by
  intro s hs hD hfail
  refine ⟨encBound s, rfl, ?_⟩
  rw [encBound_of_not_answers hs hD hfail]
  exact spoiledAs_raise (e := .busError 0) rfl (by decide)

end Sys2Proof.Machine

/-! PROOFS. The decode commands (42_decode.md): `Dec4` by its formulas, as a cut of bits and as the inverse of `Enc3`, and
what `DEC_BULK` and `DEC_BOUND` write when they complete and leave when they fail. -/

namespace Sys2Proof.Machine

/-! ## `Dec4` -/

/-- The cut of the 24-bit group into bytes (42_decode.md R150). -/
theorem extractLsb'_sextets (i0 i1 i2 i3 : Sextet) :
    (i0 ++ i1 ++ i2 ++ i3).extractLsb' 16 8 = decB0 i0 i1 ∧ (i0 ++ i1 ++ i2 ++ i3).extractLsb' 8 8 = decB1 i1 i2 ∧
    (i0 ++ i1 ++ i2 ++ i3).extractLsb' 0 8 = decB2 i2 i3 := by
  have h1 := i1.isLt
  have h2 := i2.isLt
  have h3 := i3.isLt
  refine ⟨?_, ?_, ?_⟩ <;> apply BitVec.eq_of_toNat_eq <;>
    rw [BitVec.extractLsb'_toNat, append_four_toNat, Nat.shiftRight_eq_div_pow]
  · rw [decB0_nat]; omega
  · rw [decB1_nat]; omega
  · rw [decB2_nat]; omega

/-- `Enc3` keeps the 24-bit group. -/
theorem encS_append (b0 b1 b2 : Byte) : encS0 b0 ++ encS1 b0 b1 ++ encS2 b1 b2 ++ encS3 b2 = b0 ++ b1 ++ b2 := by
  apply BitVec.eq_of_toNat_eq
  rw [append_four_toNat, append_three_toNat, encS0_toNat, encS1_toNat, encS2_toNat, encS3_toNat]
  omega

/-- `Dec4` keeps the 24-bit group. -/
theorem decB_append (i0 i1 i2 i3 : Sextet) :
    decB0 i0 i1 ++ decB1 i1 i2 ++ decB2 i2 i3 = i0 ++ i1 ++ i2 ++ i3 := by
  apply BitVec.eq_of_toNat_eq
  rw [append_four_toNat, append_three_toNat, decB0_nat, decB1_nat, decB2_nat]
  omega

theorem append_three_inj {a b c a' b' c' : Byte} (h : a ++ b ++ c = a' ++ b' ++ c') : a = a' ∧ b = b' ∧ c = c' := by
  have hgroup := congrArg BitVec.toNat h
  rw [append_three_toNat, append_three_toNat] at hgroup
  refine ⟨?_, ?_, ?_⟩ <;> bv_omega

theorem append_four_inj {a b c d a' b' c' d' : Sextet} (h : a ++ b ++ c ++ d = a' ++ b' ++ c' ++ d') :
    a = a' ∧ b = b' ∧ c = c' ∧ d = d' := by
  have hgroup := congrArg BitVec.toNat h
  rw [append_four_toNat, append_four_toNat] at hgroup
  refine ⟨?_, ?_, ?_, ?_⟩ <;> bv_omega

/-! ## The destination checks of `DEC_BOUND` -/

section
variable {o : Operands} {out : Nat}

theorem checkDst_nullDst (hdst : o.dst = 0) : checkDst o out = some .nullDst := if_pos hdst

theorem checkDst_dstTooSmall (hdst : o.dst ≠ 0) (hcap : o.cap < out) : checkDst o out = some .dstTooSmall := by
  rw [checkDst, if_neg hdst, if_pos hcap]

theorem checkDst_dstWrap (hdst : o.dst ≠ 0) (hcap : out ≤ o.cap) (htop : 2 ^ 32 < o.dst + out) :
    checkDst o out = some .dstWrap := by
  rw [checkDst, if_neg hdst, if_neg (by omega), if_pos htop]

theorem checkDst_overlap (hdst : o.dst ≠ 0) (hcap : out ≤ o.cap) (htop : o.dst + out ≤ 2 ^ 32)
    (hmeet : ¬WindowsApart o.src o.len o.dst out) : checkDst o out = some .overlap := by
  rw [checkDst, if_neg hdst, if_neg (by omega), if_neg (by omega), if_pos (by omega)]

end

/-- A command that ends with the reason of its destination checks makes them in their order (60_exceptions.md R203). -/
theorem dstRejections_of_checkDst {s t : State} {out : Nat}
    (h : ∀ r, checkDst (operands s) out = some r → t = raise (.invalidArgument r) s) : DstRejections s t out := by
  have hrejected : ∀ r, checkDst (operands s) out = some r → RejectedAs s t r.code.toNat := fun r hr =>
    h r hr ▸ rejectedAs_raise r s
  exact ⟨fun hdst => hrejected _ (checkDst_nullDst hdst),
    fun hdst hcap => hrejected _ (checkDst_dstTooSmall hdst hcap),
    fun hdst hcap htop => hrejected _ (checkDst_dstWrap hdst hcap htop),
    fun hdst hcap htop hmeet => hrejected _ (checkDst_overlap hdst hcap htop hmeet)⟩

/-- The final group at the source, with the output length that its destination checks were of. -/
abbrev tailGroupAt (s : State) (out : Nat) : TailGroup :=
  ⟨byteAt s s.srcAddr.toNat, byteAt s (s.srcAddr.toNat + 1), byteAt s (s.srcAddr.toNat + 2),
    byteAt s (s.srcAddr.toNat + 3), out⟩

theorem decBoundPrepare_of_not_answers {s : State} (hs : SrcUsable (operands s) .bound4)
    (ha : ¬Answers s.platform s.srcAddr.toNat 4) : decBoundPrepare s = .error (.busError 0) := by
  simp only [decBoundPrepare, checkSrc_eq_none.mpr hs, operands_src, readChars_eq, if_neg ha]

/-- Where its four characters can be read, `DEC_BOUND` makes the argument checks of any command, for `3 - p` bytes. -/
theorem decBoundPrepare_of_answers {s : State} (ha : Answers s.platform s.srcAddr.toNat 4) :
    decBoundPrepare s = (checkArgs (operands s) .bound4 (3 - tailPads s)).map (tailGroupAt s) := by
  simp only [decBoundPrepare, checkArgs, operands_src, readChars_eq, if_pos ha]
  cases checkSrc (operands s) .bound4 with
  | some r => rfl
  | none => cases checkDst (operands s) (3 - tailPads s) <;> rfl

theorem decBound_of_prepare_error {s : State} {e : Failure} (h : decBoundPrepare s = .error e) :
    decBound s = raise e s := by
  simp only [decBound, h]

/-! ## How `DEC_BOUND` fails past its destination checks -/

section
variable {s : State} (hs : SrcUsable (operands s) .bound4) (ha : Answers s.platform s.srcAddr.toNat 4)
  (hD : DstUsable (operands s) (3 - tailPads s))
include hs ha hD

theorem decBound_of_malformed (hb : decBoundBytes s = none) :
    decBound s = raise (.malformedInput 0) (drawWindow (3 - tailPads s) s) := by
  rw [decBound_of_usable hs ha hD]
  simp only [decBoundRun, hb, conclude_error]

theorem decBound_of_not_writable {bytes : List Byte} (hb : decBoundBytes s = some bytes)
    (hd : ¬Answers s.platform s.dstAddr.toNat (3 - tailPads s)) :
    decBound s = raise (.busError 0) (drawWindow (3 - tailPads s) s) := by
  rw [decBound_of_usable hs ha hD]
  simp only [decBoundRun, hb, operands_dst]
  rw [memWriteSeq_of_not_answers (by rw [tailBytes_length hb]; exact hd), conclude_error]

end

/-! ## The bytes of a final group, by its pad count -/

theorem tailBytes_two_pads (c0 : Byte) (x : Sextet) :
    tailBytes c0 (T x) pad pad = (alphaIndex c0).map fun i0 => [decB0 i0 x] := by
  rw [tailBytes, alphaIndex_T, padCount_two]
  cases alphaIndex c0 <;> rfl

theorem tailBytes_one_pad (c0 c1 : Byte) (x : Sextet) :
    tailBytes c0 c1 (T x) pad =
      (alphaIndex c0).bind fun i0 => (alphaIndex c1).map fun i1 => [decB0 i0 i1, decB1 i1 x] := by
  rw [tailBytes, alphaIndex_T, padCount_one (T_ne_pad x)]
  cases alphaIndex c0 with
  | none => rfl
  | some i0 => cases alphaIndex c1 <;> rfl

/-- With no `PAD` at its end a final group is decoded as any other group; a `PAD` before the last character is malformed in
both. -/
theorem tailBytes_no_pad {c3 : Byte} (h : c3 ≠ pad) (c0 c1 c2 : Byte) :
    tailBytes c0 c1 c2 c3 = fullBytes c0 c1 c2 c3 := by
  rw [tailBytes, fullBytes, padCount_of_ne h]
  cases alphaIndex c0 with
  | none => rfl
  | some i0 =>
    cases alphaIndex c1 with
    | none => rfl
    | some i1 =>
      cases alphaIndex c2 with
      | none => rfl
      | some i2 => cases alphaIndex c3 <;> rfl

/-- The first byte takes the two high bits of the second index, and no other of it. -/
theorem decB0_congr {x y : Sextet} (h : x.toNat / 16 = y.toNat / 16) (i0 : Sextet) : decB0 i0 x = decB0 i0 y := by
  apply BitVec.eq_of_toNat_eq
  rw [decB0_nat, decB0_nat, h]

/-- The second byte takes the four high bits of the third index, and no other of it. -/
theorem decB1_congr {x y : Sextet} (h : x.toNat / 4 = y.toNat / 4) (i1 : Sextet) : decB1 i1 x = decB1 i1 y := by
  apply BitVec.eq_of_toNat_eq
  rw [decB1_nat, decB1_nat, h]

/-! ## `DEC_BOUND` and `DEC_BULK` on one group -/

theorem checkSrc_bound4_eq_bulk4 {o : Operands} (h : o.len = 4) : checkSrc o .bound4 = checkSrc o .bulk4 := by
  have hlen : checkLen o.len .bound4 = checkLen o.len .bulk4 := by rw [h]; rfl
  simp only [checkSrc, hlen]

theorem checkArgs_bound4_eq_bulk4 {o : Operands} (h : o.len = 4) (out : Nat) :
    checkArgs o .bound4 out = checkArgs o .bulk4 out := by
  simp only [checkArgs, checkSrc_bound4_eq_bulk4 h]

theorem forGroups_one (body : Nat → Memory → Except Failure Memory) (g : Nat) (m : Memory) :
    forGroups body 1 g m = body g m := by
  simp only [forGroups]
  cases body g m <;> rfl

theorem decBoundRun_eq_decodeGroup {s : State} (ha : Answers s.platform s.srcAddr.toNat 4)
    (h : byteAt s (s.srcAddr.toNat + 3) ≠ pad) (out : Nat) :
    decBoundRun s (tailGroupAt s out) = decodeGroup s.platform s.srcAddr.toNat s.dstAddr.toNat 0 s.mem := by
  simp only [decBoundRun, decodeGroup, operands_dst, tailBytes_no_pad h, Nat.mul_zero, Nat.add_zero, readChars_eq,
    if_pos ha]

/-- `DEC_BULK` on a text of one group, past its checks. -/
theorem decBulk_of_one_group {s : State} (hlen : s.srcLen.toNat = 4) {out : Nat} (hp : decBulkPrepare s = .ok out) :
    decBulk s = conclude out 0 (decodeGroup s.platform s.srcAddr.toNat s.dstAddr.toNat 0 s.mem) s := by
  simp only [decBulk, hp, operands_src, operands_dst, operands_len, hlen, Nat.reduceDiv, forGroups_one]

/-! ## The obligations -/

/-- Settles O24: the naturals of the formulas are the values of the bytes, and so are the cuts of the group. -/
theorem dec4FollowsFormulasAndBitCut : Obligations.Dec4FollowsFormulasAndBitCut := by
  intro i0 i1 i2 i3
  obtain ⟨hcut0, hcut1, hcut2⟩ := extractLsb'_sextets i0 i1 i2 i3
  obtain ⟨hnat0, hnat1, hnat2⟩ := decB_toNat
  rw [hcut0, hcut1, hcut2, ← hnat0, ← hnat1, ← hnat2]
  simp only [BitVec.ofNat_toNat, BitVec.setWidth_eq]
  exact ⟨(decB0 i0 i1).isLt, (decB1 i1 i2).isLt, (decB2 i2 i3).isLt, rfl, rfl⟩

/-- Settles O25: both transforms keep the 24-bit group, and a group is cut into bytes, or into sextets, in one way only. -/
theorem dec4AndEnc3AreInverse : Obligations.Dec4AndEnc3AreInverse := by
  refine ⟨fun b0 b1 b2 s0 s1 s2 s3 h => ?_, fun i0 i1 i2 i3 => ?_⟩
  · simp only [enc3, List.cons.injEq] at h
    obtain ⟨h0, h1, h2, h3, -⟩ := h
    rw [← T_injective h0, ← T_injective h1, ← T_injective h2, ← T_injective h3]
    have hgroup := encS_append b0 b1 b2
    obtain ⟨hb0, hb1, hb2⟩ := append_three_inj ((decB_append _ _ _ _).trans hgroup)
    exact ⟨by rw [dec4, hb0, hb1, hb2], hgroup⟩
  · have hgroup := decB_append i0 i1 i2 i3
    obtain ⟨hi0, hi1, hi2, hi3⟩ := append_four_inj ((encS_append _ _ _).trans hgroup)
    exact ⟨_, _, _, rfl, by rw [enc3, hi0, hi1, hi2, hi3], hgroup⟩

/-- Settles O28: the characters are read before the destination is looked at, and then the checks are of `3 - p` bytes. -/
theorem decBoundChecksDestinationAfterReading : Obligations.DecBoundChecksDestinationAfterReading := by
  intro s hs
  refine ⟨fun ha => ⟨decBound s, rfl, ?_⟩, fun ha => ⟨decBound s, rfl, ?_⟩⟩
  · have hinputs := (decBound_ended s).sameInputs
    rw [decBound_of_prepare_error (decBoundPrepare_of_not_answers hs ha)] at hinputs ⊢
    exact ⟨raise_outcome (.busError 0) s (by decide), raise_mem _ _, raise_draws _ _, hinputs⟩
  · refine dstRejections_of_checkDst fun r hr => decBound_of_prepare_error ?_
    rw [decBoundPrepare_of_answers ha, checkArgs_of_dst (checkSrc_eq_none.mpr hs) hr]
    rfl

/-- Settles O35: every group is of alphabet characters, so the loop writes the bytes of each and changes nothing else. -/
theorem decBulkCompletes : Obligations.DecBulkCompletes := by
  intro s hs hD ha hd hc
  obtain ⟨m, hm, hsame, hout⟩ := decBulk_of_usable hs hD ha hd hc
  refine ⟨decBulk s, rfl, ?_, ?_, ?_, (decBulk_ended s).sameInputs, ?_⟩ <;> rw [hm]
  · exact finish_outcome (out_lt_of_dstUsable hD) (by decide) _
  · intro g hg
    obtain ⟨i0, i1, i2, i3, h0, h1, h2, h3, hb⟩ := decBytes_of_isAlpha (j := g) hc (by omega)
    have hbyte : ∀ k, k < 3 → Memory.read m (s.dstAddr.toNat + 3 * g + k) = (dec4 i0 i1 i2 i3).getD k 0 := by
      intro k hk
      rw [hout g k hg hk, hb, Option.getD_some]
    refine ⟨i0, i1, i2, i3, alphaIndex_eq_some.mp h0, alphaIndex_eq_some.mp h1, alphaIndex_eq_some.mp h2,
      alphaIndex_eq_some.mp h3, ?_⟩
    simp only [dec4, List.cons.injEq, and_true]
    exact ⟨(hbyte 0 (by decide)).symm, (hbyte 1 (by decide)).symm, (hbyte 2 (by decide)).symm⟩
  · exact hsame
  · exact finish_draws _ _ _

/-- Settles O36: the groups before `f` are written and leave the text as it was, so group `f` is read and is malformed. -/
theorem decBulkMalformedAtFirstGroup : Obligations.DecBulkMalformedAtFirstGroup := by
  intro s f hs hD hf ha hd hc hbad
  refine ⟨decBulk s, rfl, ?_⟩
  have hfail := decBulk_of_first_failure hs hD hf (ha.sub le_rfl (by omega)) hd hc fun m hm =>
    decodeGroup_malformed (ha.sub (by omega) le_rfl) ((decBytes_reached hD hf hm).trans (decBytes_eq_none hbad))
  have hlen := s.srcLen.isLt
  rw [hfail]
  exact spoiledAs_raise (e := .malformedInput f) rfl (show f < 2 ^ 32 by omega)

/-- Settles O37: the groups before `f` are written, and group `f` fails in its reads or, well formed, in its writes. -/
theorem decBulkBusErrorAtFirstGroup : Obligations.DecBulkBusErrorAtFirstGroup := by
  intro s f hs hD hf ha hd hc hfail
  have hgroup : ∀ m, SameButGroups s.dstAddr.toNat 3 0 f s.mem m →
      decodeGroup s.platform s.srcAddr.toNat s.dstAddr.toNat f m = .error (.busError f) := by
    intro m hm
    by_cases hread : Answers s.platform (s.srcAddr.toNat + 4 * f) 4
    · obtain ⟨hchars, hwrite⟩ := hfail.resolve_left (not_not.mpr hread)
      obtain ⟨i0, i1, i2, i3, h0, h1, h2, h3⟩ := alphaIndex_of_isAlpha_four (hchars 0 (by decide))
        (hchars 1 (by decide)) (hchars 2 (by decide)) (hchars 3 (by decide))
      have hb : decBytes s.srcAddr.toNat f s.mem = some (dec4 i0 i1 i2 i3) :=
        fullBytes_eq_some.mpr ⟨i0, i1, i2, i3, h0, h1, h2, h3, rfl⟩
      rw [decodeGroup_valid hread ((decBytes_reached hD hf hm).trans hb), if_neg hwrite]
    · exact decodeGroup_unread hread
  have hlen := s.srcLen.isLt
  refine ⟨decBulk s, rfl, ?_⟩
  rw [decBulk_of_first_failure hs hD hf ha hd hc hgroup]
  exact spoiledAs_raise (e := .busError f) rfl (show f < 2 ^ 32 by omega)

/-- Settles O38: the command writes the `3 - p` bytes of the group, and nothing else changes. -/
theorem decBoundCompletes : Obligations.DecBoundCompletes := by
  intro s p hvalid hs hD ha hd
  obtain rfl : p = tailPads s := padCount_of_tailValid hvalid
  obtain ⟨bytes, hb⟩ := Option.isSome_iff_exists.mp (tailBytes_isSome.mpr hvalid)
  have hlen : bytes.length = 3 - tailPads s := tailBytes_length hb
  have hp : tailPads s ≤ 2 := padCount_le _ _
  refine ⟨decBound s, rfl, ?_, ?_, ?_, (decBound_ended s).sameInputs, ?_⟩ <;>
    rw [decBound_eq_finish hs ha hD hd hb]
  · exact finish_outcome (out_lt_of_dstUsable hD) (by omega) _
  · have hbyte : ∀ k b, k < 3 - tailPads s → bytes.getD k 0 = b →
        (Memory.read (Memory.writeSeq s.mem s.dstAddr.toNat bytes) (s.dstAddr.toNat + k)).toNat = b.toNat := by
      intro k b hk hkb
      rw [Memory.read_writeSeq, hlen, if_pos (by omega), Nat.add_sub_cancel_left, hkb]
    obtain ⟨hnat0, hnat1, hnat2⟩ := decB_toNat
    obtain ⟨i0, i1, h0, h1, hb0, hsecond⟩ := tailBytes_getD hb
    refine ⟨i0, i1, alphaIndex_eq_some.mp h0, alphaIndex_eq_some.mp h1,
      (hbyte 0 _ (by omega) hb0).trans (hnat0 i0 i1), fun hp1 => ?_⟩
    obtain ⟨i2, h2, hb1, hthird⟩ := hsecond hp1
    refine ⟨i2, alphaIndex_eq_some.mp h2, (hbyte 1 _ (by omega) hb1).trans (hnat1 i1 i2), fun hp0 => ?_⟩
    obtain ⟨i3, h3, hb2⟩ := hthird hp0
    exact ⟨i3, alphaIndex_eq_some.mp h3, (hbyte 2 _ (by omega) hb2).trans (hnat2 i2 i3)⟩
  · intro a hout
    rw [finish_mem, Memory.read_writeSeq, hlen, if_neg hout]
  · exact finish_draws _ _ _

/-- Settles O39: the bytes of a final group exist on the table of R155 only. -/
theorem decBoundMalformed : Obligations.DecBoundMalformed := by
  rintro s p rfl hinvalid hs hD ha
  have hb : decBoundBytes s = none := by
    rw [← Option.not_isSome_iff_eq_none, tailBytes_isSome]
    exact hinvalid
  refine ⟨decBound s, rfl, ?_⟩
  rw [decBound_of_malformed hs ha hD hb]
  exact spoiledAs_raise (e := .malformedInput 0) rfl (by decide)

/-- Settles O40: the bytes of the group exist, and their write fails. -/
theorem decBoundWriteBusError : Obligations.DecBoundWriteBusError := by
  intro s p hvalid hs hD ha hd
  obtain rfl : p = tailPads s := padCount_of_tailValid hvalid
  obtain ⟨bytes, hb⟩ := Option.isSome_iff_exists.mp (tailBytes_isSome.mpr hvalid)
  refine ⟨decBound s, rfl, ?_⟩
  rw [decBound_of_not_writable hs ha hD hb hd]
  exact spoiledAs_raise (e := .busError 0) rfl (by decide)

/-- Settles O41: with two `PAD`s the last index gives its two high bits to the first byte, with one `PAD` its four high bits
to the second. -/
theorem decBoundIgnoresUnusedBits : Obligations.DecBoundIgnoresUnusedBits := by
  refine ⟨fun c0 x y h => ?_, fun c0 c1 x y h => ?_⟩
  · simp only [tailBytes_two_pads, decB0_congr h]
  · simp only [tailBytes_one_pad, decB1_congr h]

/-- Settles O42: both commands make the same checks of 3 bytes, and past them both do one pass of the loop of `DEC_BULK`. -/
theorem decBoundIsDecBulkOnUnpaddedGroup : Obligations.DecBoundIsDecBulkOnUnpaddedGroup := by
  intro s hlen ha h3
  have hpads : tailPads s = 0 := padCount_of_ne h3
  have hbulk : decBulkPrepare s = checkArgs (operands s) .bulk4 3 := by
    rw [decBulkPrepare, decBulkOut, operands_len, hlen]
  have hbound : decBoundPrepare s = (decBulkPrepare s).map (tailGroupAt s) := by
    rw [decBoundPrepare_of_answers ha, hpads, checkArgs_bound4_eq_bulk4 hlen, hbulk]
  refine congrArg Host.Outcome.next (?_ : decBound s = decBulk s)
  cases hp : decBulkPrepare s with
  | error e =>
    rw [hp] at hbound
    rw [decBound_of_prepare_error hbound]
    simp only [decBulk, hp]
  | ok out =>
    rw [hp] at hbound
    calc decBound s
      _ = conclude out (tailPads s) (decBoundRun s (tailGroupAt s out)) s := by rw [decBound, hbound]; rfl
      _ = conclude out 0 (decodeGroup s.platform s.srcAddr.toNat s.dstAddr.toNat 0 s.mem) s := by
        rw [hpads, decBoundRun_eq_decodeGroup ha h3]
      _ = decBulk s := (decBulk_of_one_group hlen hp).symm

end Sys2Proof.Machine

/-! PROOFS. The size command (43_size.md): how `DEC_SIZE` ends, and what its outcome depends on. -/

namespace Sys2Proof.Machine

/-! ## What `DEC_SIZE` reads -/

theorem readLastTwo_of_not_answers {s : State}
    (h : ¬(Platform.accessible s.platform (s.srcAddr.toNat + s.srcLen.toNat - 2) = true ∧
      Platform.accessible s.platform (s.srcAddr.toNat + s.srcLen.toNat - 1) = true)) : readLastTwo s = none := by
  refine Option.eq_none_iff_forall_ne_some.mpr fun ⟨a, b⟩ hab => ?_
  obtain ⟨h2, h1, -, -⟩ := readLastTwo_eq_some.mp hab
  exact h ⟨h2, h1⟩

/-- `DEC_SIZE` on a usable source when one of the last two characters does not answer. -/
theorem decSize_of_not_answers {s : State} (hs : SrcUsable (operands s) .size4)
    (h : ¬(Platform.accessible s.platform (s.srcAddr.toNat + s.srcLen.toNat - 2) = true ∧
      Platform.accessible s.platform (s.srcAddr.toNat + s.srcLen.toNat - 1) = true)) :
    decSize s = raise (.busError (s.srcLen.toNat / 4 - 1)) s := by
  simp only [decSize, checkSrc_eq_none.mpr hs, readLastTwo_of_not_answers h, operands_len]

/-- `CheckSrc` looks at the source operands only. -/
theorem checkSrc_congr {o o' : Operands} {K : LenClass} (hsrc : o'.src = o.src) (hlen : o'.len = o.len) :
    checkSrc o' K = checkSrc o K := by
  simp only [checkSrc, hsrc, hlen]

/-- A read depends on the byte at its address only. -/
theorem memRead_congr {p : Platform} {m m' : Memory} {a : Nat} (h : Memory.read m' a = Memory.read m a) :
    memRead p m' a = memRead p m a := by
  simp only [memRead, h]

/-- The outcome is a function of the length, of the checks of the source and of the two characters read. -/
theorem decSize_sameOutcome {s s' : State} (hlen : s'.srcLen = s.srcLen)
    (hcheck : checkSrc (operands s') .size4 = checkSrc (operands s) .size4) (hread : readLastTwo s' = readLastTwo s) :
    SameOutcome (decSize s) (decSize s') := by
  simp only [decSize, hcheck, hread, operands_len, hlen]
  cases checkSrc (operands s) .size4 with
  | some r => exact ⟨rfl, rfl, rfl⟩
  | none =>
    cases readLastTwo s with
    | none => exact ⟨rfl, rfl, rfl⟩
    | some ab => exact ⟨rfl, rfl, rfl⟩

/-- The two forms of the decoded size (43_size.md R180, R181). -/
theorem sub_eq_decodedSize {n p : Nat} (hn : 4 ≤ n) (hp : p ≤ 2) : 3 * (n / 4) - p = decodedSize n p := by
  simp only [decodedSize]
  omega

/-! ## The obligations -/

/-- Settles O43: the destination registers are not looked at, and the command ends with `finish` on the state as it is. -/
theorem decSizeCompletes : Obligations.DecSizeCompletes := by
  rintro s p hs h2 h1 rfl
  have hfinish := decSize_eq_finish hs h2 h1
  obtain ⟨-, ⟨hn, -⟩, -⟩ := hs
  have hp : sizePads s ≤ 2 := padCount_le _ _
  have hsize : 3 * (s.srcLen.toNat / 4) - sizePads s = decodedSize s.srcLen.toNat (sizePads s) :=
    sub_eq_decodedSize hn hp
  refine ⟨decSize s, rfl, ?_, hsize, ?_, (decSize_ended s).sameInputs, ?_⟩ <;> rw [hfinish]
  · rw [hsize]
    exact finish_outcome (decodedSize_lt s.srcLen.isLt) (by omega) s
  · exact finish_mem _ _ _
  · exact finish_draws _ _ _

/-- Settles O44: the read fails, and there is no window to spoil. -/
theorem decSizeBusError : Obligations.DecSizeBusError := by
  intro s hs h
  have hgroup : s.srcLen.toNat / 4 - 1 < 2 ^ 32 := by
    have := s.srcLen.isLt
    omega
  refine ⟨decSize s, rfl, ?_, ?_, (decSize_ended s).sameInputs, ?_⟩ <;> rw [decSize_of_not_answers hs h]
  · exact raise_outcome (.busError _) s hgroup
  · exact raise_mem _ _
  · exact raise_draws _ _

/-- Settles O45: both runs make the same checks and read the same two bytes of the same addresses. -/
theorem decSizeReadsOnlyTheLastTwo : Obligations.DecSizeReadsOnlyTheLastTwo := by
  intro s s' t t' haddr hlen hplatform hbyte2 hbyte1 ht ht'
  obtain rfl : decSize s = t := Host.Outcome.next.inj ht
  obtain rfl : decSize s' = t' := Host.Outcome.next.inj ht'
  have hcheck : checkSrc (operands s') .size4 = checkSrc (operands s) .size4 :=
    checkSrc_congr (congrArg BitVec.toNat haddr) (congrArg BitVec.toNat hlen)
  have hread2 := memRead_congr (p := s.platform) hbyte2
  have hread1 := memRead_congr (p := s.platform) hbyte1
  refine decSize_sameOutcome hlen hcheck ?_
  simp only [readLastTwo, operands_src, operands_len, haddr, hlen, hplatform, hread2, hread1]

end Sys2Proof.Machine

/-! PROOFS. The reference sequences (44_host_sequences.md): when ENCODE and DECODE return `OK`, and what they have written
then. -/

namespace Sys2Proof.Machine

/-! ## Windows -/

theorem answers_add {p : Platform} {a m n : Nat} : Answers p a (m + n) ↔ Answers p a m ∧ Answers p (a + m) n := by
  refine ⟨fun h => ⟨h.sub le_rfl (by omega), h.sub (by omega) (by omega)⟩, fun ⟨hm, hn⟩ k hk => ?_⟩
  by_cases hkm : k < m
  · exact hm k hkm
  · exact hn.at_address (by omega) (by omega)

/-- A source of `n` bytes at `S` and a destination of `out` bytes at `D` that a command, or a whole sequence, can use:
they pass the checks of 60_exceptions.md R203 that are not of the length class, and every byte of both answers. -/
structure WindowsUsable (p : Platform) (S n D C out : Nat) : Prop where
  src : S ≠ 0
  dst : D ≠ 0
  cap : out ≤ C
  srcTop : S + n ≤ 2 ^ 32
  dstTop : D + out ≤ 2 ^ 32
  apart : WindowsApart S n D out
  reads : Answers p S n
  writes : Answers p D out

section
variable {p : Platform} {S n n' D C out out' : Nat}

/-- The windows of a sequence's first command are the first parts of the whole windows. -/
theorem WindowsUsable.left (h : WindowsUsable p S (n + n') D C (out + out')) : WindowsUsable p S n D C out := by
  obtain ⟨hsrc, hdst, hcap, hsrcTop, hdstTop, hapart, hreads, hwrites⟩ := h
  exact ⟨hsrc, hdst, by omega, by omega, by omega, by omega, (answers_add.mp hreads).1, (answers_add.mp hwrites).1⟩

/-- The windows of a sequence's second command are the rest of the whole windows. -/
theorem WindowsUsable.right (h : WindowsUsable p S (n + n') D C (out + out')) :
    WindowsUsable p (S + n) n' (D + out) (C - out) out' := by
  obtain ⟨hsrc, hdst, hcap, hsrcTop, hdstTop, hapart, hreads, hwrites⟩ := h
  exact ⟨by omega, by omega, by omega, by omega, by omega, by omega, (answers_add.mp hreads).2,
    (answers_add.mp hwrites).2⟩

/-- Usable parts make a usable whole where the whole windows are apart (44_host_sequences.md R195). -/
theorem WindowsUsable.append (h : WindowsUsable p S n D C out)
    (h' : WindowsUsable p (S + n) n' (D + out) (C - out) out') (hapart : WindowsApart S (n + n') D (out + out')) :
    WindowsUsable p S (n + n') D C (out + out') := by
  obtain ⟨hsrc, hdst, hcap, -, -, -, hreads, hwrites⟩ := h
  obtain ⟨-, -, hcap', hsrcTop', hdstTop', -, hreads', hwrites'⟩ := h'
  exact ⟨hsrc, hdst, by omega, by omega, by omega, hapart, answers_add.mpr ⟨hreads, hreads'⟩,
    answers_add.mpr ⟨hwrites, hwrites'⟩⟩

theorem word_toNat_of_ne_zero {a : Nat} (ha : a ≤ 2 ^ 32) (h : (word a).toNat ≠ 0) : (word a).toNat = a := by
  refine word_toNat (Nat.lt_of_le_of_ne ha ?_)
  rintro rfl
  exact h rfl

/-- An address that a sequence computes can be `2^32`, which is written as the null address (log 10): no window stands
at either. -/
theorem windowsUsable_word (hS : S ≤ 2 ^ 32) (hD : D ≤ 2 ^ 32) (hC : C < 2 ^ 32) (hn : 0 < n) (hout : 0 < out) :
    WindowsUsable p (word S).toNat n (word D).toNat (word C).toNat out ↔ WindowsUsable p S n D C out := by
  rw [word_toNat hC]
  constructor <;> intro h
  · rwa [word_toNat_of_ne_zero hS h.src, word_toNat_of_ne_zero hD h.dst] at h
  · have hsrcTop := h.srcTop
    have hdstTop := h.dstTop
    rwa [word_toNat (by omega), word_toNat (by omega)]

end

/-- The operand registers hold usable windows, for an output of `out` bytes. -/
abbrev OperandsUsable (s : State) (out : Nat) : Prop :=
  WindowsUsable s.platform s.srcAddr.toNat s.srcLen.toNat s.dstAddr.toNat s.dstCap.toNat out

theorem operandsUsable_iff {s : State} {K : LenClass} {out : Nat} (hlen : LenAccepted K s.srcLen.toNat) :
    OperandsUsable s out ↔ SrcUsable (operands s) K ∧ DstUsable (operands s) out ∧
      Answers s.platform s.srcAddr.toNat s.srcLen.toNat ∧ Answers s.platform s.dstAddr.toNat out := by
  constructor
  · rintro ⟨hsrc, hdst, hcap, hsrcTop, hdstTop, hapart, hreads, hwrites⟩
    exact ⟨⟨hsrc, hlen, hsrcTop⟩, ⟨hdst, hcap, hdstTop, hapart⟩, hreads, hwrites⟩
  · rintro ⟨⟨hsrc, -, hsrcTop⟩, ⟨hdst, hcap, hdstTop, hapart⟩, hreads, hwrites⟩
    exact ⟨hsrc, hdst, hcap, hsrcTop, hdstTop, hapart, hreads, hwrites⟩

/-! ## A sequence, one command after the other -/

/-- The run returned another code than `OK`. -/
def Fails (run : SeqRun) : Prop := ∃ o t, run = .next (o, t) ∧ o.code ≠ 1

/-- Where `ok` holds the run goes on as `next` does from a state that meets `after`; where it does not, the run returns
another code than `OK` (44_host_sequences.md R190). -/
def GoesOn (run : SeqRun) (next : State → SeqRun) (ok : Prop) (after : State → Prop) : Prop :=
  (ok ∧ ∃ t, after t ∧ run = next t) ∨ (¬ok ∧ Fails run)

section
variable {run : SeqRun} {next next' : State → SeqRun} {ok ok' : Prop} {after after' : State → Prop} {s : State}

theorem fails_seqReject (r : Reason) (s : State) : Fails (seqReject r s) := ⟨_, s, rfl, by simp [Failure.code]⟩

theorem goesOn_here (hok : ok) (hs : after s) : GoesOn (next s) next ok after := .inl ⟨hok, s, hs, rfl⟩

theorem goesOn_seqReject {r : Reason} (hok : ¬ok) : GoesOn (seqReject r s) next ok after :=
  .inr ⟨hok, fails_seqReject r s⟩

/-- A command goes on where it ends `OK`. -/
theorem goesOn_commandThen {es : List Event} {t : State} (h : perform (es ++ b64Status) s = .next t)
    (hok : codeField t.status = 1 ↔ ok) (hafter : ok → after t) : GoesOn (commandThen es next s) next ok after := by
  by_cases hc : codeField t.status = 1
  · exact .inl ⟨hok.mp hc, t, hafter (hok.mp hc), (commandThen_of_perform h).trans (if_pos hc)⟩
  · exact .inr ⟨hok.not.mp hc, _, _, (commandThen_of_perform h).trans (if_neg hc), hc⟩

theorem GoesOn.trans (h : GoesOn run next ok after)
    (h' : ok → ∀ t, after t → GoesOn (next t) next' ok' after') : GoesOn run next' (ok ∧ ok') after' := by
  obtain ⟨hok, t, ht, hrun⟩ | ⟨hok, hrun⟩ := h
  · obtain ⟨hok', hnext⟩ | ⟨hok', hnext⟩ := h' hok t ht
    · exact .inl ⟨⟨hok, hok'⟩, hrun ▸ hnext⟩
    · exact .inr ⟨fun h => hok' h.2, hrun ▸ hnext⟩
  · exact .inr ⟨fun h => hok h.1, hrun⟩

theorem GoesOn.imp (h : GoesOn run next ok after) (hok : ok ↔ ok') (hafter : ok' → ∀ t, after t → after' t) :
    GoesOn run next ok' after' := by
  obtain ⟨h, t, ht, hrun⟩ | ⟨h, hrun⟩ := h
  · exact .inl ⟨hok.mp h, t, hafter (hok.mp h) t ht, hrun⟩
  · exact .inr ⟨hok.not.mp h, hrun⟩

theorem GoesOn.after_of_ok (h : GoesOn run next ok after) (hok : ok) : ∃ t, after t ∧ run = next t := by
  obtain ⟨-, hnext⟩ | ⟨hno, -⟩ := h
  · exact hnext
  · exact absurd hok hno

theorem GoesOn.ok_of_code {o : SeqOutcome} {t : State} (h : GoesOn run next ok after) (hrun : run = .next (o, t))
    (hc : o.code = 1) : ok := by
  obtain ⟨hok, -⟩ | ⟨-, o', t', hrun', hc'⟩ := h
  · exact hok
  · cases hrun.symm.trans hrun'
    exact absurd hc hc'

/-- A sequence that returns `OK` has gone on to its end. -/
theorem GoesOn.at_end {count : Nat} {o : SeqOutcome} {t : State} (h : GoesOn run (seqOk count) ok after)
    (hrun : run = .next (o, t)) (hc : o.code = 1) : ok ∧ after t ∧ o.count = count := by
  have hok := h.ok_of_code hrun hc
  obtain ⟨t', ht, hrun'⟩ := h.after_of_ok hok
  cases hrun.symm.trans hrun'
  exact ⟨hok, ht, rfl⟩

/-- A step that a sequence may leave out. -/
theorem goesOn_ite {c : Prop} [Decidable c] (h : c → GoesOn run next ok after) (hs : ¬c → after s) :
    GoesOn (if c then run else next s) next (c → ok) after := by
  by_cases hc : c
  · rw [if_pos hc]
    exact (h hc).imp ⟨fun hok _ => hok, fun hok => hok hc⟩ fun _ _ => id
  · rw [if_neg hc]
    exact goesOn_here (fun h => absurd h hc) (hs hc)

/-- The host's own rejection, before it goes on. -/
theorem GoesOn.unless {c : Prop} [Decidable c] {r : Reason} (h : ¬c → GoesOn run next ok after) :
    GoesOn (if c then seqReject r s else run) next (¬c ∧ ok) after := by
  by_cases hc : c
  · rw [if_pos hc]
    exact goesOn_seqReject fun h => h.1 hc
  · rw [if_neg hc]
    exact (h hc).imp ⟨fun hok => ⟨hc, hok⟩, And.right⟩ fun _ _ => id

end

/-! ## ENCODE -/

theorem encBulk_ok_iff {s : State} (hlen : LenAccepted .bulk3 s.srcLen.toNat) :
    codeField (encBulk s).status = 1 ↔ OperandsUsable s (4 * (s.srcLen.toNat / 3)) := by
  rw [operandsUsable_iff hlen]
  refine ⟨encBulk_usable, fun ⟨hs, hD, ha, hd⟩ => ?_⟩
  obtain ⟨m, hm, -⟩ := encBulk_of_usable hs hD ha hd
  rw [hm, finish_status, codeField_statusWord]
  rfl

theorem encBound_ok_iff {s : State} (hlen : LenAccepted .bound3 s.srcLen.toNat) :
    codeField (encBound s).status = 1 ↔ OperandsUsable s 4 := by
  rw [operandsUsable_iff hlen]
  refine ⟨encBound_usable, fun ⟨hs, hD, ha, hd⟩ => ?_⟩
  rw [encBound_eq_finish hs hD ha hd, finish_status, codeField_statusWord]
  rfl

/-- Character `k` of the group of `r` leftover bytes at `S` (41_encode.md R133). -/
abbrev leftoverChar (S r : Nat) (s : State) (k : Nat) : Byte :=
  if k ≤ r then (enc3 (byteAt s S) (if r = 2 then byteAt s (S + 1) else 0) 0).getD k 0 else pad

/-- The text of the `n` bytes that stand at `S` in `s` stands at `D` in `t`, and nothing else of memory has changed. -/
structure Encoded (S D n : Nat) (s t : State) : Prop where
  platform : t.platform = s.platform
  frame : SameOutside s t D (textLength n)
  group : ∀ g k, g < n / 3 → k < 4 → byteAt t (D + 4 * g + k) = (encBytes S g s.mem).getD k 0
  leftover : n % 3 ≠ 0 → ∀ k, k < 4 → byteAt t (D + 4 * (n / 3) + k) = leftoverChar (S + 3 * (n / 3)) (n % 3) s k

section
variable {S D n : Nat} {s t u : State}

theorem textLength_of_full (n : Nat) : textLength (3 * (n / 3)) = 4 * (n / 3) := by
  unfold textLength
  omega

theorem textLength_of_leftover (h : 0 < n % 3) : textLength n = 4 * (n / 3) + 4 := by
  unfold textLength
  omega

theorem textLength_of_no_leftover (h : n % 3 = 0) : textLength n = 4 * (n / 3) := by
  unfold textLength
  omega

theorem Encoded.nil (S D : Nat) (s : State) : Encoded S D 0 s s where
  platform := rfl
  frame _ _ := rfl
  group _ _ hg := absurd hg (by omega)
  leftover h := absurd rfl h

/-- `ENC_BULK` writes the text of the full groups. -/
theorem encoded_encBulk (hlen : LenAccepted .bulk3 s.srcLen.toNat)
    (h : OperandsUsable s (4 * (s.srcLen.toNat / 3))) :
    Encoded s.srcAddr.toNat s.dstAddr.toNat s.srcLen.toNat s (encBulk s) := by
  obtain ⟨hs, hD, ha, hd⟩ := (operandsUsable_iff hlen).mp h
  obtain ⟨t, ht, -, hgroup, hframe, hin, -⟩ := encBulkCompletes s hs hD ha hd
  obtain rfl : encBulk s = t := Host.Outcome.next.inj ht
  obtain ⟨-, -, -, -, -, hplatform, -⟩ := hin
  have hmod : s.srcLen.toNat % 3 = 0 := hlen.2
  exact ⟨hplatform, (textLength_of_no_leftover hmod).symm ▸ hframe, hgroup, fun h => absurd hmod h⟩

/-- The text of the group of `r` leftover bytes at `a` stands at `d` in `t`, and nothing else of memory has changed. -/
structure LeftoverEncoded (a d r : Nat) (s t : State) : Prop where
  platform : t.platform = s.platform
  frame : SameOutside s t d 4
  char : ∀ k, k < 4 → byteAt t (d + k) = leftoverChar a r s k

/-- `ENC_BOUND` writes the text of the leftover group. -/
theorem leftoverEncoded_encBound (hlen : LenAccepted .bound3 s.srcLen.toNat) (h : OperandsUsable s 4) :
    LeftoverEncoded s.srcAddr.toNat s.dstAddr.toNat s.srcLen.toNat s (encBound s) := by
  obtain ⟨hs, hD, ha, hd⟩ := (operandsUsable_iff hlen).mp h
  obtain ⟨t, ht, -, hchar, hframe, hin, -⟩ := encBoundCompletes s hs hD ha hd
  obtain rfl : encBound s = t := Host.Outcome.next.inj ht
  obtain ⟨-, -, -, -, -, hplatform, -⟩ := hin
  exact ⟨hplatform, hframe, hchar⟩

theorem leftoverChar_congr {a r : Nat} (hr : 0 < r) (h : ∀ b, a ≤ b → b < a + r → byteAt u b = byteAt s b) (k : Nat) :
    leftoverChar a r u k = leftoverChar a r s k := by
  simp only [leftoverChar]
  rw [h a le_rfl (by omega)]
  by_cases h2 : r = 2
  · rw [if_pos h2, if_pos h2, h (a + 1) (by omega) (by omega)]
  · rw [if_neg h2, if_neg h2]

/-- The text of the full groups, and then that of the leftover bytes, which the first command has left as they were. -/
theorem Encoded.append_leftover (hfull : Encoded S D (3 * (n / 3)) s u) (hr : 0 < n % 3)
    (hleft : LeftoverEncoded (S + 3 * (n / 3)) (D + 4 * (n / 3)) (n % 3) u t)
    (hsrc : ∀ a, S + 3 * (n / 3) ≤ a → a < S + 3 * (n / 3) + n % 3 → byteAt u a = byteAt s a) : Encoded S D n s t where
  platform := hleft.platform.trans hfull.platform
  frame a ha := by
    have hout := hfull.frame a
    rw [textLength_of_full] at hout
    rw [textLength_of_leftover hr] at ha
    rw [hleft.frame a (by omega), hout (by omega)]
  group g k hg hk := (hleft.frame _ (by omega)).trans (hfull.group g k (by omega) hk)
  leftover _ k hk := (hleft.char k hk).trans (leftoverChar_congr hr hsrc k)

end

section
variable {S n D C : Word} {s : State} {next : State → SeqRun}

/-- The command of the full groups. -/
theorem goesOn_encBulk {q : Nat} (hq : q > 0) (hlt : 3 * q < 2 ^ 32) :
    GoesOn (commandThen (b64EncBulk S (word (3 * q)) D C) next s) next
      (WindowsUsable s.platform S.toNat (3 * q) D.toNat C.toNat (4 * q)) (Encoded S.toNat D.toNat (3 * q) s) := by
  have hword : (word (3 * q)).toNat = 3 * q := word_toNat hlt
  have hlen : LenAccepted .bulk3 (word (3 * q)).toNat := by rw [hword]; omega
  have hok := encBulk_ok_iff (s := ready S (word (3 * q)) D C (encode .encBulk) s) hlen
  have hafter := encoded_encBulk (s := ready S (word (3 * q)) D C (encode .encBulk) s) hlen
  simp only [OperandsUsable, hword, Nat.mul_div_cancel_left _ (Nat.zero_lt_succ 2)] at hok hafter
  refine goesOn_commandThen (perform_encBulk _ _ _ _ _) hok fun h => ?_
  obtain ⟨hplatform, hframe, hgroup, hleftover⟩ := hafter h
  exact ⟨hplatform, hframe, hgroup, hleftover⟩

/-- The command of a leftover group, at addresses that the host has computed. -/
theorem goesOn_encBound {a r d c : Nat} (hr : r = 1 ∨ r = 2) (ha : a ≤ 2 ^ 32) (hd : d ≤ 2 ^ 32) (hc : c < 2 ^ 32) :
    GoesOn (commandThen (b64EncBound (word a) (word r) (word d) (word c)) next s) next
      (WindowsUsable s.platform a r d c 4) (LeftoverEncoded a d r s) := by
  generalize hv : ready (word a) (word r) (word d) (word c) (encode .encBound) s = v
  have hwlen : v.srcLen.toNat = r := hv ▸ word_toNat (by omega)
  have hlen : LenAccepted .bound3 v.srcLen.toNat := hwlen.symm ▸ hr
  have husable : OperandsUsable v 4 ↔ WindowsUsable s.platform a r d c 4 := by
    rw [OperandsUsable, hwlen, ← hv]
    exact windowsUsable_word ha hd hc (by omega) (by omega)
  refine goesOn_commandThen (perform_encBound _ _ _ _ _) (hv ▸ (encBound_ok_iff hlen).trans husable) fun h => ?_
  have hsrcTop := h.srcTop
  have hdstTop := h.dstTop
  have hsrc : v.srcAddr.toNat = a := hv ▸ word_toNat (by omega)
  have hdst : v.dstAddr.toNat = d := hv ▸ word_toNat (by omega)
  have hleft := leftoverEncoded_encBound hlen (husable.mpr h)
  rw [hsrc, hdst, hwlen] at hleft
  subst hv
  exact ⟨hleft.platform, hleft.frame, hleft.char⟩

end

/-- What ENCODE needs for `OK` (44_host_sequences.md R192). -/
abbrev EncodeUsable (p : Platform) (S n D C : Word) : Prop :=
  1 ≤ n.toNat ∧ WindowsUsable p S.toNat n.toNat D.toNat C.toNat (textLength n.toNat)

/-- What the first command of ENCODE needs. -/
abbrev FullGroupsUsable (p : Platform) (S n D C : Nat) : Prop :=
  WindowsUsable p S (3 * (n / 3)) D C (4 * (n / 3))

/-- What the last command of ENCODE needs. -/
abbrev LeftoverUsable (p : Platform) (S n D C : Nat) : Prop :=
  WindowsUsable p (S + 3 * (n / 3)) (n % 3) (D + 4 * (n / 3)) (C - 4 * (n / 3)) 4

/-- ENCODE passes its overlap check of the whole windows (44_host_sequences.md R195). -/
abbrev EncodeChecked (S n D : Nat) : Prop :=
  ¬(S ≠ 0 ∧ D ≠ 0 ∧ S + n ≤ 2 ^ 32 ∧ D + textLength n ≤ 2 ^ 32 ∧ S < D + textLength n ∧ D < S + n)

/-- Past the host's check, the whole windows are usable exactly when those of each command are. -/
theorem windowsUsable_encode_iff {p : Platform} {S n D C : Nat} (hn : n ≠ 0) :
    (EncodeChecked S n D ∧ (n / 3 > 0 → FullGroupsUsable p S n D C) ∧ (n % 3 > 0 → LeftoverUsable p S n D C)) ↔
      WindowsUsable p S n D C (textLength n) := by
  have hdiv : 3 * (n / 3) + n % 3 = n := Nat.div_add_mod n 3
  constructor
  · rintro ⟨hchecked, hfull, hleft⟩
    by_cases hr : n % 3 = 0
    · have h := hfull (by omega)
      rw [textLength_of_no_leftover hr]
      rwa [FullGroupsUsable, show 3 * (n / 3) = n by omega] at h
    · have hL := textLength_of_leftover (n := n) (by omega)
      have h' := hleft (by omega)
      by_cases hq : n / 3 = 0
      · rw [hL, hq]
        simpa [LeftoverUsable, hq, show n % 3 = n by omega] using h'
      · have h := hfull (by omega)
        have hapart : WindowsApart S (3 * (n / 3) + n % 3) D (4 * (n / 3) + 4) := by
          obtain ⟨hsrc, hdst, -, -, -, -, -, -⟩ := h
          obtain ⟨-, -, -, hsrcTop, hdstTop, -, -, -⟩ := h'
          omega
        rw [hL]
        simpa only [hdiv] using h.append h' hapart
  · intro h
    have hle : 4 * (n / 3) ≤ textLength n := by
      unfold textLength
      omega
    have hparts : WindowsUsable p S (3 * (n / 3) + n % 3) D C (4 * (n / 3) + (textLength n - 4 * (n / 3))) := by
      rwa [hdiv, Nat.add_sub_cancel' hle]
    refine ⟨?_, fun _ => hparts.left, fun hr => ?_⟩
    · obtain ⟨-, -, -, -, -, hapart, -, -⟩ := h
      omega
    · have hright := hparts.right
      rwa [textLength_of_leftover hr, Nat.add_sub_cancel_left] at hright

/-- The last step of ENCODE, after the text of the full groups. -/
theorem goesOn_refEncodeTail {S n D C : Word} {s u : State}
    (hfull : n.toNat / 3 > 0 → FullGroupsUsable s.platform S.toNat n.toNat D.toNat C.toNat)
    (hapart : LeftoverUsable s.platform S.toNat n.toNat D.toNat C.toNat →
      WindowsApart S.toNat n.toNat D.toNat (textLength n.toNat))
    (hu : Encoded S.toNat D.toNat (3 * (n.toNat / 3)) s u) :
    GoesOn (refEncodeTail S.toNat n.toNat D.toNat C.toNat u) (seqOk (textLength n.toNat))
      (n.toNat % 3 > 0 → LeftoverUsable s.platform S.toNat n.toNat D.toNat C.toNat)
      (Encoded S.toNat D.toNat n.toNat s) := by
  have htops : S.toNat + 3 * (n.toNat / 3) ≤ 2 ^ 32 ∧ D.toNat + 4 * (n.toNat / 3) ≤ 2 ^ 32 := by
    by_cases hq : n.toNat / 3 > 0
    · exact ⟨(hfull hq).srcTop, (hfull hq).dstTop⟩
    · have hS := S.isLt
      have hD := D.isLt
      omega
  refine goesOn_ite (next := seqOk _) (fun hr => ?_) fun _ => ?_
  · refine (goesOn_encBound (by omega) htops.1 htops.2 (by omega)).imp (by rw [hu.platform]) fun hleft t ht =>
      hu.append_leftover hr ht fun a h1 h2 => hu.frame a ?_
    have hwhole := hapart hleft
    rw [textLength_of_leftover hr] at hwhole
    rw [textLength_of_full]
    omega
  · rwa [show 3 * (n.toNat / 3) = n.toNat by omega] at hu

/-- ENCODE returns `OK` exactly on usable whole windows, and has then written the text. -/
theorem goesOn_refEncode (S n D C : Word) (s : State) :
    GoesOn (refEncode S n D C s) (seqOk (textLength n.toNat)) (EncodeUsable s.platform S n D C)
      (Encoded S.toNat D.toNat n.toNat s) := by
  unfold refEncode
  by_cases hn : n.toNat = 0
  · rw [if_pos hn]
    exact goesOn_seqReject fun h => absurd h.1 (by omega)
  · rw [if_neg hn]
    have hparts := windowsUsable_encode_iff (p := s.platform) (S := S.toNat) (D := D.toNat) (C := C.toNat) hn
    have hfirst := goesOn_ite (c := n.toNat / 3 > 0) (s := s) (next := refEncodeTail S.toNat n.toNat D.toNat C.toNat)
      (after := Encoded S.toNat D.toNat (3 * (n.toNat / 3)) s)
      (fun hq => goesOn_encBulk (D := D) (C := C) hq (by omega))
      fun hq => by rw [show n.toNat / 3 = 0 by omega]; exact Encoded.nil _ _ _
    exact (GoesOn.unless fun hchecked => hfirst.trans fun hfull u hu =>
      goesOn_refEncodeTail hfull (fun hleft => (hparts.mp ⟨hchecked, hfull, fun _ => hleft⟩).apart) hu).imp
      (hparts.trans ⟨fun h => ⟨by omega, h⟩, And.right⟩) fun _ _ => id

/-- A character of the leftover group is `PAD` where no sextet of it takes a bit of a byte. -/
theorem leftoverChar_eq_pad_iff {S r k : Nat} (hk : k < 4) (s : State) :
    leftoverChar S r s k = pad ↔ r < k := by
  by_cases hkr : k ≤ r
  · rw [leftoverChar, if_pos hkr]
    exact iff_of_false (ne_pad_of_isAlpha (isAlpha_enc3_getD _ _ _ hk)) (by omega)
  · rw [leftoverChar, if_neg hkr]
    exact iff_of_true rfl (by omega)

theorem isAlpha_leftoverChar_of_le {S r k : Nat} (hr : r < 3) (hkr : k ≤ r) (s : State) :
    isAlpha (leftoverChar S r s k) = true := by
  rw [leftoverChar, if_pos hkr]
  exact isAlpha_enc3_getD _ _ _ (hkr.trans_lt (hr.trans (by decide)))

section
variable {S D n k : Nat} {s t : State}

theorem Encoded.isAlpha_of_full (h : Encoded S D n s t) (hk : k < 4 * (n / 3)) : isAlpha (byteAt t (D + k)) = true := by
  have hgroup := h.group (k / 4) (k % 4) (by omega) (Nat.mod_lt _ (by decide))
  rw [Nat.add_assoc, Nat.div_add_mod] at hgroup
  rw [hgroup]
  exact isAlpha_enc3_getD _ _ _ (Nat.mod_lt _ (by decide))

/-- `PAD` stands at the end of the text only (44_host_sequences.md R192). -/
theorem Encoded.char (h : Encoded S D n s t) (hk : k < textLength n) :
    (isAlpha (byteAt t (D + k)) = true ∨ byteAt t (D + k) = pad) ∧
      (byteAt t (D + k) = pad ↔
        (n % 3 = 1 ∧ textLength n ≤ k + 2) ∨ (n % 3 = 2 ∧ textLength n ≤ k + 1)) := by
  by_cases hfull : k < 4 * (n / 3)
  · have halpha := h.isAlpha_of_full hfull
    refine ⟨.inl halpha, iff_of_false (ne_pad_of_isAlpha halpha) ?_⟩
    have hL : 4 * ((n + 2) / 3) = textLength n := rfl
    omega
  · have hr : n % 3 ≠ 0 := fun hr => by
      rw [textLength_of_no_leftover hr] at hk
      omega
    have hL := textLength_of_leftover (n := n) (by omega)
    have hchar := h.leftover hr (k - 4 * (n / 3)) (by omega)
    rw [show D + 4 * (n / 3) + (k - 4 * (n / 3)) = D + k by omega] at hchar
    rw [hchar, leftoverChar_eq_pad_iff (by omega)]
    refine ⟨?_, by omega⟩
    by_cases hle : k - 4 * (n / 3) ≤ n % 3
    · exact .inl (isAlpha_leftoverChar_of_le (by omega) hle s)
    · exact .inr (by omega)

end

/-! ## DECODE -/

/-- The pad count of the final group at `a`. -/
abbrev finalPads (m : Memory) (a : Nat) : Nat := padCount (Memory.read m (a + 2)) (Memory.read m (a + 3))

/-- The bytes of the final group at `a`, none when it is malformed. -/
abbrev finalBytes (m : Memory) (a : Nat) : Option (List Byte) :=
  tailBytes (Memory.read m a) (Memory.read m (a + 1)) (Memory.read m (a + 2)) (Memory.read m (a + 3))

/-- The pad count and the bytes of a final group depend on its four characters only. -/
theorem final_congr {m m' : Memory} {a : Nat} (h : ∀ b, a ≤ b → b < a + 4 → Memory.read m' b = Memory.read m b) :
    finalPads m' a = finalPads m a ∧ finalBytes m' a = finalBytes m a := by
  simp only [finalPads, finalBytes]
  rw [h a (by omega) (by omega), h (a + 1) (by omega) (by omega), h (a + 2) (by omega) (by omega),
    h (a + 3) (by omega) (by omega)]
  exact ⟨rfl, rfl⟩

theorem decSize_ok_iff {s : State} :
    codeField (decSize s).status = 1 ↔ SrcUsable (operands s) .size4 ∧
      Platform.accessible s.platform (s.srcAddr.toNat + s.srcLen.toNat - 2) = true ∧
      Platform.accessible s.platform (s.srcAddr.toNat + s.srcLen.toNat - 1) = true := by
  refine ⟨decSize_usable, fun ⟨hs, h2, h1⟩ => ?_⟩
  rw [decSize_eq_finish hs h2 h1, finish_status, codeField_statusWord]
  rfl

theorem decBulk_ok_iff {s : State} (hlen : LenAccepted .bulk4 s.srcLen.toNat) :
    codeField (decBulk s).status = 1 ↔ OperandsUsable s (3 * (s.srcLen.toNat / 4)) ∧
      ∀ k, k < s.srcLen.toNat → isAlpha (byteAt s (s.srcAddr.toNat + k)) = true := by
  rw [operandsUsable_iff hlen]
  constructor
  · intro hc
    obtain ⟨hs, hD, ha, hd, hchars⟩ := decBulk_usable hc
    exact ⟨⟨hs, hD, ha, hd⟩, hchars⟩
  · rintro ⟨⟨hs, hD, ha, hd⟩, hchars⟩
    obtain ⟨m, hm, -⟩ := decBulk_of_usable hs hD ha hd hchars
    rw [hm, finish_status, codeField_statusWord]
    rfl

theorem decBound_ok_iff {s : State} (hlen : s.srcLen.toNat = 4) :
    codeField (decBound s).status = 1 ↔
      OperandsUsable s (3 - finalPads s.mem s.srcAddr.toNat) ∧ (finalBytes s.mem s.srcAddr.toNat).isSome = true := by
  rw [operandsUsable_iff (K := .bound4) hlen]
  constructor
  · intro hc
    obtain ⟨hs, ha, hD, hd, hvalid⟩ := decBound_usable hc
    exact ⟨⟨hs, hD, hlen.symm ▸ ha, hd⟩, tailBytes_isSome.mpr hvalid⟩
  · rintro ⟨⟨hs, hD, ha, hd⟩, hvalid⟩
    obtain ⟨bytes, hb⟩ := Option.isSome_iff_exists.mp hvalid
    rw [decBound_eq_finish hs (hlen ▸ ha) hD hd hb, finish_status, codeField_statusWord]
    rfl

/-- The `g` full groups at `S` stand decoded at `D` in `t`, and nothing else of memory has changed. -/
structure GroupsDecoded (S D g : Nat) (s t : State) : Prop where
  platform : t.platform = s.platform
  frame : SameOutside s t D (3 * g)
  group : ∀ j k, j < g → k < 3 → byteAt t (D + 3 * j + k) = ((decBytes S j s.mem).getD []).getD k 0

theorem GroupsDecoded.nil (S D : Nat) (s : State) : GroupsDecoded S D 0 s s where
  platform := rfl
  frame _ _ := rfl
  group _ _ hj := absurd hj (by omega)

/-- A text of `g` full groups and a final one stands decoded at `D` in `t`, nothing else of memory has changed, and
`RESULT` is the number of bytes of the final group. -/
structure Decoded (S D g : Nat) (s t : State) : Prop where
  result : t.result.toNat = 3 - finalPads s.mem (S + 4 * g)
  frame : SameOutside s t D (3 * g + (3 - finalPads s.mem (S + 4 * g)))
  group : ∀ j k, j < g → k < 3 → byteAt t (D + 3 * j + k) = ((decBytes S j s.mem).getD []).getD k 0
  final : ∀ k, k < 3 - finalPads s.mem (S + 4 * g) →
    byteAt t (D + 3 * g + k) = ((finalBytes s.mem (S + 4 * g)).getD []).getD k 0

/-- `DEC_BULK` decodes the full groups. -/
theorem groupsDecoded_decBulk {s : State} (hlen : LenAccepted .bulk4 s.srcLen.toNat)
    (h : OperandsUsable s (3 * (s.srcLen.toNat / 4)))
    (hchars : ∀ k, k < s.srcLen.toNat → isAlpha (byteAt s (s.srcAddr.toNat + k)) = true) :
    GroupsDecoded s.srcAddr.toNat s.dstAddr.toNat (s.srcLen.toNat / 4) s (decBulk s) := by
  obtain ⟨hs, hD, ha, hd⟩ := (operandsUsable_iff hlen).mp h
  obtain ⟨m, hm, hsame, hgroup⟩ := decBulk_of_usable hs hD ha hd hchars
  rw [hm]
  exact ⟨rfl, hsame, hgroup⟩

/-- The final group at `a` stands decoded at `d` in `t`, nothing else of memory has changed, and `RESULT` is the number
of its bytes. -/
structure FinalDecoded (a d : Nat) (s t : State) : Prop where
  result : t.result.toNat = 3 - finalPads s.mem a
  frame : SameOutside s t d (3 - finalPads s.mem a)
  byte : ∀ k, k < 3 - finalPads s.mem a → byteAt t (d + k) = ((finalBytes s.mem a).getD []).getD k 0

/-- `DEC_BOUND` decodes the final group. -/
theorem finalDecoded_decBound {s : State} (hlen : s.srcLen.toNat = 4)
    (h : OperandsUsable s (3 - finalPads s.mem s.srcAddr.toNat))
    (hvalid : (finalBytes s.mem s.srcAddr.toNat).isSome = true) :
    FinalDecoded s.srcAddr.toNat s.dstAddr.toNat s (decBound s) := by
  obtain ⟨hs, hD, ha, hd⟩ := (operandsUsable_iff (K := .bound4) hlen).mp h
  obtain ⟨bytes, hb⟩ := Option.isSome_iff_exists.mp hvalid
  have hbytes : bytes.length = 3 - finalPads s.mem s.srcAddr.toNat := tailBytes_length hb
  have hp : tailPads s ≤ 2 := padCount_le _ _
  rw [decBound_eq_finish hs (hlen ▸ ha) hD hd hb]
  refine ⟨(finish_outcome (out_lt_of_dstUsable hD) (by omega) _).2.1, fun a hout => ?_, fun k hk => ?_⟩
  · rw [finish_mem, Memory.read_writeSeq, hbytes, if_neg hout]
  · rw [byteAt, finish_mem, Memory.read_writeSeq, hbytes, if_pos (by omega), Nat.add_sub_cancel_left, hb,
      Option.getD_some]

/-- The full groups decoded, and then the final one, which the first command has left as it was. -/
theorem GroupsDecoded.append_final {S D g : Nat} {s t u : State} (hgroups : GroupsDecoded S D g s u)
    (hfinal : FinalDecoded (S + 4 * g) (D + 3 * g) u t)
    (hsrc : ∀ a, S + 4 * g ≤ a → a < S + 4 * g + 4 → byteAt u a = byteAt s a) : Decoded S D g s t := by
  obtain ⟨hpads, hbytes⟩ := final_congr hsrc
  obtain ⟨hresult, hframe, hbyte⟩ := hfinal
  rw [hpads] at hresult hframe hbyte
  rw [hbytes] at hbyte
  refine ⟨hresult, fun a ha => ?_, fun j k hj hk => ?_, hbyte⟩
  · exact (hframe a (by omega)).trans (hgroups.frame a (by omega))
  · exact (hframe _ (by omega)).trans (hgroups.group j k hj hk)

section
variable {S n D C : Word} {s : State} {next : State → SeqRun}

/-- What the first command of DECODE needs. -/
abbrev SizeUsable (p : Platform) (S n : Nat) : Prop :=
  S ≠ 0 ∧ (4 ≤ n ∧ n % 4 = 0) ∧ S + n ≤ 2 ^ 32 ∧ Platform.accessible p (S + n - 2) = true ∧
    Platform.accessible p (S + n - 1) = true

/-- The size command of DECODE leaves memory as it was (43_size.md R180). -/
theorem goesOn_decSize :
    GoesOn (commandThen (b64DecSize S n) next s) next (SizeUsable s.platform S.toNat n.toNat) fun t =>
      t.mem = s.mem ∧ t.platform = s.platform ∧ t.result.toNat = 3 * (n.toNat / 4) -
        padCount (byteAt s (S.toNat + n.toNat - 2)) (byteAt s (S.toNat + n.toNat - 1)) := by
  have hok := decSize_ok_iff (s := ready S n s.dstAddr s.dstCap (encode .decSize) s)
  refine goesOn_commandThen (perform_decSize S n s) (hok.trans ?_) fun h => ?_
  · exact ⟨fun ⟨⟨h0, hn, htop⟩, h2, h1⟩ => ⟨h0, hn, htop, h2, h1⟩,
      fun ⟨h0, hn, htop, h2, h1⟩ => ⟨⟨h0, hn, htop⟩, h2, h1⟩⟩
  · obtain ⟨h0, hn, htop, h2, h1⟩ := h
    obtain ⟨t, ht, ⟨-, hresult, -⟩, -, hmem, hin, -⟩ :=
      decSizeCompletes (ready S n s.dstAddr s.dstCap (encode .decSize) s) _ ⟨h0, hn, htop⟩ h2 h1 rfl
    obtain ⟨-, -, -, -, -, hplatform, -⟩ := hin
    obtain rfl : decSize (ready S n s.dstAddr s.dstCap (encode .decSize) s) = t := Host.Outcome.next.inj ht
    exact ⟨hmem, hplatform, hresult⟩

/-- What the bulk command of DECODE needs. -/
abbrev GroupsUsable (s : State) (S D C g : Nat) : Prop :=
  WindowsUsable s.platform S (4 * g) D C (3 * g) ∧ ∀ k, k < 4 * g → isAlpha (byteAt s (S + k)) = true

/-- What the last command of DECODE needs. -/
abbrev FinalUsable (s : State) (S D C : Nat) : Prop :=
  WindowsUsable s.platform S 4 D C (3 - finalPads s.mem S) ∧ (finalBytes s.mem S).isSome = true

/-- The command of the full groups of a text. -/
theorem goesOn_decBulk {g : Nat} (hg : g > 0) (hlt : 4 * g < 2 ^ 32) :
    GoesOn (commandThen (b64DecBulk S (word (4 * g)) D C) next s) next (GroupsUsable s S.toNat D.toNat C.toNat g)
      (GroupsDecoded S.toNat D.toNat g s) := by
  have hword : (word (4 * g)).toNat = 4 * g := word_toNat hlt
  have hlen : LenAccepted .bulk4 (word (4 * g)).toNat := by rw [hword]; omega
  have hok := decBulk_ok_iff (s := ready S (word (4 * g)) D C (encode .decBulk) s) hlen
  have hafter := groupsDecoded_decBulk (s := ready S (word (4 * g)) D C (encode .decBulk) s) hlen
  simp only [OperandsUsable, hword, Nat.mul_div_cancel_left _ (Nat.zero_lt_succ 3)] at hok hafter
  refine goesOn_commandThen (perform_decBulk _ _ _ _ _) hok fun h => ?_
  obtain ⟨hplatform, hframe, hgroup⟩ := hafter h.1 h.2
  exact ⟨hplatform, hframe, hgroup⟩

/-- The command of the final group, at addresses that the host has computed. -/
theorem goesOn_decBound {a d c : Nat} (ha : a < 2 ^ 32) (hd : d ≤ 2 ^ 32) (hc : c < 2 ^ 32) :
    GoesOn (commandThen (b64DecBound (word a) (word d) (word c)) next s) next (FinalUsable s a d c)
      (FinalDecoded a d s) := by
  generalize hv : ready (word a) 4 (word d) (word c) (encode .decBound) s = v
  have hlen : v.srcLen.toNat = 4 := hv ▸ rfl
  have hsrc : v.srcAddr.toNat = a := hv ▸ word_toNat ha
  have hout : 0 < 3 - finalPads s.mem a := by
    have hp : finalPads s.mem a ≤ 2 := padCount_le _ _
    omega
  have hok : codeField (decBound v).status = 1 ↔ FinalUsable s a d c := by
    rw [decBound_ok_iff hlen, OperandsUsable, hlen, hsrc, ← hv]
    exact and_congr_left' (by rw [← windowsUsable_word ha.le hd hc (by decide) hout, word_toNat ha])
  refine goesOn_commandThen (perform_decBound _ _ _ _) (hv ▸ hok) fun h => ?_
  have hdst : v.dstAddr.toNat = d := by
    have hdstTop := h.1.dstTop
    rw [← hv]
    exact word_toNat (by omega)
  obtain ⟨husable, hvalid⟩ := (decBound_ok_iff hlen).mp (hok.mpr h)
  have hdecoded := finalDecoded_decBound hlen husable hvalid
  rw [hsrc, hdst] at hdecoded
  subst hv
  exact ⟨hdecoded.result, hdecoded.frame, hdecoded.byte⟩

end

/-- What DECODE needs for `OK` of a text of `g` full groups and a final one (44_host_sequences.md R193). -/
abbrev DecodeUsable (s : State) (S D C g : Nat) : Prop :=
  WindowsUsable s.platform S (4 * g + 4) D C (3 * g + (3 - finalPads s.mem (S + 4 * g))) ∧
    (∀ k, k < 4 * g → isAlpha (byteAt s (S + k)) = true) ∧ (finalBytes s.mem (S + 4 * g)).isSome = true

/-- DECODE passes its overlap check of the whole windows (44_host_sequences.md R195), as it does wherever the
destination window wraps (log 13). -/
abbrev DecodeChecked (S n D m : Nat) : Prop := ¬(D ≠ 0 ∧ D + m ≤ 2 ^ 32 ∧ S < D + m ∧ D < S + n)

/-- Past the host's check, and but for the corner of log 13, the operands are usable exactly when those of each command
are. -/
theorem decodeUsable_iff {s : State} {S D C g m : Nat} (hm : m = 3 * g + (3 - finalPads s.mem (S + 4 * g)))
    (hcorner : D + m ≤ 2 ^ 32 ∨ WindowsApart S (4 * g + 4) D m) :
    (DecodeChecked S (4 * g + 4) D m ∧ (g > 0 → GroupsUsable s S D C g) ∧
      FinalUsable s (S + 4 * g) (D + 3 * g) (C - 3 * g)) ↔ DecodeUsable s S D C g := by
  subst hm
  constructor
  · rintro ⟨hchecked, hgroups, hfinal, hvalid⟩
    by_cases hg : g = 0
    · subst hg
      refine ⟨?_, fun k hk => absurd hk (by omega), hvalid⟩
      simpa using hfinal
    · obtain ⟨hfirst, hchars⟩ := hgroups (by omega)
      have hdst := hfirst.dst
      exact ⟨hfirst.append hfinal (by omega), hchars, hvalid⟩
  · rintro ⟨h, hchars, hvalid⟩
    have hapart := h.apart
    exact ⟨by omega, fun _ => ⟨h.left, hchars⟩, h.right, hvalid⟩

/-- The last step of DECODE on a text of `g` full groups and a final one. -/
theorem refDecodeTail_eq (S D C m g : Nat) (s : State) :
    refDecodeTail S (4 * g + 4) D C m s =
      commandThen (b64DecBound (word (S + 4 * g)) (word (D + 3 * g)) (word (C - 3 * g))) (seqOk m) s := by
  have hgroups : (4 * g + 4) / 4 - 1 = g := by omega
  have hfinal : S + (4 * g + 4) - 4 = S + 4 * g := by omega
  rw [refDecodeTail, hgroups, hfinal]

/-- The last step of DECODE, after the full groups and with the final group as it was. -/
theorem goesOn_refDecodeTail {S D C : Word} {g m : Nat} {s u : State} (hsrcTop : S.toNat + (4 * g + 4) ≤ 2 ^ 32)
    (hgroups : g > 0 → GroupsUsable s S.toNat D.toNat C.toNat g) (hu : GroupsDecoded S.toNat D.toNat g s u)
    (hsrc : ∀ a, S.toNat + 4 * g ≤ a → a < S.toNat + 4 * g + 4 → byteAt u a = byteAt s a) :
    GoesOn (refDecodeTail S.toNat (4 * g + 4) D.toNat C.toNat m u) (seqOk m)
      (FinalUsable s (S.toNat + 4 * g) (D.toNat + 3 * g) (C.toNat - 3 * g)) (Decoded S.toNat D.toNat g s) := by
  have hd : D.toNat + 3 * g ≤ 2 ^ 32 := by
    by_cases hg : g > 0
    · exact (hgroups hg).1.dstTop
    · have hD := D.isLt
      omega
  obtain ⟨hpads, hbytes⟩ := final_congr hsrc
  rw [refDecodeTail_eq]
  refine (goesOn_decBound (by omega) hd (by omega)).imp ?_ fun _ t ht => hu.append_final ht hsrc
  rw [FinalUsable, hpads, hbytes, hu.platform]

/-- DECODE after its size command: but for the corner of log 13 it returns `OK` exactly on usable operands and a
well-formed text, and has then decoded the text. -/
theorem goesOn_refDecodeSized {S n D C : Word} {g m : Nat} {s : State} (hn : n.toNat = 4 * g + 4)
    (hsrcTop : S.toNat + n.toNat ≤ 2 ^ 32) (hm : m = 3 * g + (3 - finalPads s.mem (S.toNat + 4 * g)))
    (hcorner : D.toNat + m ≤ 2 ^ 32 ∨ WindowsApart S.toNat n.toNat D.toNat m) :
    GoesOn (refDecodeSized S n D C m s) (seqOk m) (DecodeUsable s S.toNat D.toNat C.toNat g)
      (Decoded S.toNat D.toNat g s) := by
  rw [hn] at hcorner hsrcTop
  have hbulk : (4 * g + 4) / 4 > 1 ↔ g > 0 := by omega
  simp only [refDecodeSized, hn, hbulk, Nat.add_sub_cancel]
  have hfirst := goesOn_ite (c := g > 0) (s := s) (next := refDecodeTail S.toNat (4 * g + 4) D.toNat C.toNat m)
    (after := GroupsDecoded S.toNat D.toNat g s) (fun hg => goesOn_decBulk (D := D) (C := C) hg (by omega))
    fun hg => by rw [show g = 0 by omega]; exact GroupsDecoded.nil _ _ _
  refine (GoesOn.unless fun hchecked => hfirst.trans fun hgroups u hu =>
    goesOn_refDecodeTail hsrcTop hgroups hu fun a h1 h2 => hu.frame a ?_).imp (decodeUsable_iff hm hcorner)
    fun _ _ => id
  by_cases hg : g > 0
  · have hdst := (hgroups hg).1.dst
    omega
  · omega

/-- DECODE returns `OK` only on a source its size command accepts. -/
theorem sizeUsable_of_refDecode {S n D C : Word} {s t : State} {o : SeqOutcome}
    (hrun : refDecode S n D C s = .next (o, t)) (hc : o.code = 1) : SizeUsable s.platform S.toNat n.toNat :=
  goesOn_decSize.ok_of_code hrun hc

theorem DecodeUsable.sizeUsable {s : State} {S D C g : Nat} (h : DecodeUsable s S D C g) :
    SizeUsable s.platform S (4 * g + 4) :=
  ⟨h.1.src, by omega, h.1.srcTop, h.1.reads.at_address (by omega) (by omega),
    h.1.reads.at_address (by omega) (by omega)⟩

/-- The decoded size that `DEC_SIZE` answers is that of the full groups and of the final one (43_size.md R181, R182). -/
theorem size_eq_of_groups (m : Memory) (S g : Nat) :
    3 * ((4 * g + 4) / 4) - padCount (Memory.read m (S + (4 * g + 4) - 2)) (Memory.read m (S + (4 * g + 4) - 1)) =
      3 * g + (3 - finalPads m (S + 4 * g)) := by
  have hp := padCount_le (Memory.read m (S + 4 * g + 2)) (Memory.read m (S + 4 * g + 3))
  rw [finalPads, show S + (4 * g + 4) - 2 = S + 4 * g + 2 by omega, show S + (4 * g + 4) - 1 = S + 4 * g + 3 by omega]
  omega

/-- DECODE, but for the corner of log 13: it returns `OK` exactly on usable operands and a well-formed text, and has
then decoded the text. -/
theorem goesOn_refDecode {S n D C : Word} {g m : Nat} {s : State} (hn : n.toNat = 4 * g + 4)
    (hm : m = 3 * (n.toNat / 4) - padCount (byteAt s (S.toNat + n.toNat - 2)) (byteAt s (S.toNat + n.toNat - 1)))
    (hcorner : D.toNat + m ≤ 2 ^ 32 ∨ WindowsApart S.toNat n.toNat D.toNat m) :
    GoesOn (refDecode S n D C s) (seqOk m) (DecodeUsable s S.toNat D.toNat C.toNat g)
      (Decoded S.toNat D.toNat g s) := by
  unfold refDecode
  refine (goesOn_decSize.trans (ok' := DecodeUsable s S.toNat D.toNat C.toNat g) fun hsize t ht => ?_).imp ?_
    fun _ _ => id
  · obtain ⟨hmem, hplatform, hresult⟩ := ht
    rw [← hm] at hresult
    have hparts : m = 3 * g + (3 - finalPads t.mem (S.toNat + 4 * g)) := by
      rw [hmem, ← size_eq_of_groups, ← hn]
      exact hm
    have hsized := goesOn_refDecodeSized (C := C) hn hsize.2.2.1 hparts hcorner
    simp only [readReg, hresult]
    refine hsized.imp ?_ fun _ u hu => ?_
    · simp only [DecodeUsable, byteAt, hmem, hplatform]
    · obtain ⟨hresult, hframe, hgroup, hfinal⟩ := hu
      simp only [SameOutside, hmem] at hresult hframe hgroup hfinal
      exact ⟨hresult, hframe, hgroup, hfinal⟩
  · exact ⟨And.right, fun h => ⟨hn ▸ h.sizeUsable, h⟩⟩

theorem chars_of_tailValid {c0 c1 c2 c3 : Byte} {p : Nat} (h : TailValid c0 c1 c2 c3 p) :
    isAlpha c0 = true ∧ isAlpha c1 = true ∧ (c2 = pad ∨ isAlpha c2 = true) ∧ (c3 = pad ∨ isAlpha c3 = true) := by
  obtain ⟨-, h0, h1, h2, h3⟩ | ⟨-, h0, h1, h2, h3⟩ | ⟨-, h0, h1, h2, h3⟩ := h
  · exact ⟨h0, h1, .inr h2, .inr h3⟩
  · exact ⟨h0, h1, .inr h2, .inl h3⟩
  · exact ⟨h0, h1, .inl h2, .inl h3⟩

/-- The characters of a well-formed final group are of the alphabet or `PAD`. -/
theorem index_ne_invalid_of_finalBytes {m : Memory} {a k : Nat} (h : (finalBytes m a).isSome = true) (hk : k < 4) :
    index (Memory.read m (a + k)) ≠ .invalid := by
  rw [index_ne_invalid_iff]
  obtain ⟨h0, h1, h2, h3⟩ := chars_of_tailValid (tailBytes_isSome.mp h)
  obtain rfl | rfl | rfl | rfl : k = 0 ∨ k = 1 ∨ k = 2 ∨ k = 3 := by omega
  · exact .inr h0
  · exact .inr h1
  · exact h2
  · exact h3

/-- A text that DECODE accepts holds no invalid byte. -/
theorem DecodeUsable.index_ne_invalid {s : State} {S D C g k : Nat} (h : DecodeUsable s S D C g) (hk : k < 4 * g + 4) :
    index (byteAt s (S + k)) ≠ .invalid := by
  obtain ⟨-, hchars, hfinal⟩ := h
  by_cases hfull : k < 4 * g
  · exact index_ne_invalid_iff.mpr (.inr (hchars k hfull))
  · have hlast := index_ne_invalid_of_finalBytes hfinal (k := k - 4 * g) (by omega)
    rwa [show S + 4 * g + (k - 4 * g) = S + k by omega] at hlast

/-! ## The round trip -/

/-- `Dec4` undoes `Enc3`, one byte after the other. -/
theorem decB_encS (b0 b1 b2 : Byte) :
    decB0 (encS0 b0) (encS1 b0 b1) = b0 ∧ decB1 (encS1 b0 b1) (encS2 b1 b2) = b1 ∧
      decB2 (encS2 b1 b2) (encS3 b2) = b2 :=
  append_three_inj ((decB_append _ _ _ _).trans (encS_append b0 b1 b2))

theorem fullBytes_encS (b0 b1 b2 : Byte) :
    fullBytes (T (encS0 b0)) (T (encS1 b0 b1)) (T (encS2 b1 b2)) (T (encS3 b2)) = some [b0, b1, b2] := by
  obtain ⟨h0, h1, h2⟩ := decB_encS b0 b1 b2
  simp only [fullBytes, alphaIndex_T, dec4, h0, h1, h2]

/-- The bytes of `[a, a + r)`. -/
abbrev bytesAt (s : State) (a r : Nat) : List Byte := (List.range r).map fun k => byteAt s (a + k)

section
variable {S D n g r : Nat} {s t : State}

/-- The four characters of a full group. -/
theorem Encoded.chars_full (h : Encoded S D n s t) {j : Nat} (hj : j < n / 3) :
    Memory.read t.mem (D + 4 * j) = T (encS0 (byteAt s (S + 3 * j))) ∧
      Memory.read t.mem (D + 4 * j + 1) = T (encS1 (byteAt s (S + 3 * j)) (byteAt s (S + 3 * j + 1))) ∧
      Memory.read t.mem (D + 4 * j + 2) = T (encS2 (byteAt s (S + 3 * j + 1)) (byteAt s (S + 3 * j + 2))) ∧
      Memory.read t.mem (D + 4 * j + 3) = T (encS3 (byteAt s (S + 3 * j + 2))) :=
  ⟨h.group j 0 hj (by decide), h.group j 1 hj (by decide), h.group j 2 hj (by decide), h.group j 3 hj (by decide)⟩

/-- The four characters of a group of two bytes. -/
theorem Encoded.chars_two (h : Encoded S D n s t) (hn : n = 3 * g + 2) :
    Memory.read t.mem (D + 4 * g) = T (encS0 (byteAt s (S + 3 * g))) ∧
      Memory.read t.mem (D + 4 * g + 1) = T (encS1 (byteAt s (S + 3 * g)) (byteAt s (S + 3 * g + 1))) ∧
      Memory.read t.mem (D + 4 * g + 2) = T (encS2 (byteAt s (S + 3 * g + 1)) 0) ∧
      Memory.read t.mem (D + 4 * g + 3) = pad := by
  have hchar := h.leftover (by omega)
  rw [show n / 3 = g by omega, show n % 3 = 2 by omega] at hchar
  exact ⟨hchar 0 (by decide), hchar 1 (by decide), hchar 2 (by decide), hchar 3 (by decide)⟩

/-- The four characters of a group of one byte. -/
theorem Encoded.chars_one (h : Encoded S D n s t) (hn : n = 3 * g + 1) :
    Memory.read t.mem (D + 4 * g) = T (encS0 (byteAt s (S + 3 * g))) ∧
      Memory.read t.mem (D + 4 * g + 1) = T (encS1 (byteAt s (S + 3 * g)) 0) ∧
      Memory.read t.mem (D + 4 * g + 2) = pad ∧ Memory.read t.mem (D + 4 * g + 3) = pad := by
  have hchar := h.leftover (by omega)
  rw [show n / 3 = g by omega, show n % 3 = 1 by omega] at hchar
  exact ⟨hchar 0 (by decide), hchar 1 (by decide), hchar 2 (by decide), hchar 3 (by decide)⟩

/-- A full group of the text decodes to the bytes it encodes. -/
theorem Encoded.decBytes_eq (h : Encoded S D n s t) {j : Nat} (hj : j < n / 3) :
    decBytes D j t.mem = some (bytesAt s (S + 3 * j) 3) := by
  obtain ⟨h0, h1, h2, h3⟩ := h.chars_full hj
  rw [decBytes, h0, h1, h2, h3]
  exact fullBytes_encS _ _ _

/-- The final group of the text, of `r` bytes, has `3 - r` `PAD`s and decodes to the bytes it encodes. -/
theorem Encoded.final_eq (h : Encoded S D n s t) (hn : n = 3 * g + r) (hr : r = 1 ∨ r = 2 ∨ r = 3) :
    finalPads t.mem (D + 4 * g) = 3 - r ∧ finalBytes t.mem (D + 4 * g) = some (bytesAt s (S + 3 * g) r) := by
  obtain rfl | rfl | rfl := hr
  · obtain ⟨h0, h1, h2, h3⟩ := h.chars_one hn
    obtain ⟨hb0, -, -⟩ := decB_encS (byteAt s (S + 3 * g)) 0 0
    rw [finalPads, finalBytes, h0, h1, h2, h3, tailBytes_two_pads, alphaIndex_T, Option.map_some, hb0]
    exact ⟨rfl, rfl⟩
  · obtain ⟨h0, h1, h2, h3⟩ := h.chars_two hn
    obtain ⟨hb0, hb1, -⟩ := decB_encS (byteAt s (S + 3 * g)) (byteAt s (S + 3 * g + 1)) 0
    rw [finalPads, finalBytes, h0, h1, h2, h3, tailBytes_one_pad, alphaIndex_T, alphaIndex_T, Option.bind_some,
      Option.map_some, hb0, hb1]
    exact ⟨padCount_one (T_ne_pad _), rfl⟩
  · obtain ⟨h0, h1, h2, h3⟩ := h.chars_full (j := g) (by omega)
    rw [finalPads, finalBytes, h0, h1, h2, h3, padCount_of_ne (T_ne_pad _), tailBytes_no_pad (T_ne_pad _)]
    exact ⟨rfl, fullBytes_encS _ _ _⟩

theorem bytesAt_getD {a k : Nat} (hk : k < r) (s : State) : (bytesAt s a r).getD k 0 = byteAt s (a + k) := by
  simp [List.getD, hk]

/-- DECODE of the text of `n` bytes has written these bytes. -/
theorem Decoded.byte_of_encoded {E k : Nat} {u : State} (hu : Decoded D E g t u) (ht : Encoded S D n s t)
    (hn : n = 3 * g + r) (hr : r = 1 ∨ r = 2 ∨ r = 3) (hk : k < n) : byteAt u (E + k) = byteAt s (S + k) := by
  by_cases hfull : k < 3 * g
  · have hmod : k % 3 < 3 := Nat.mod_lt k (by decide)
    have hgroup := hu.group (k / 3) (k % 3) (by omega) hmod
    rw [ht.decBytes_eq (by omega), Option.getD_some, bytesAt_getD hmod] at hgroup
    simpa only [Nat.add_assoc, Nat.div_add_mod] using hgroup
  · obtain ⟨hpads, hbytes⟩ := ht.final_eq hn hr
    have hfinal := hu.final (k - 3 * g) (by omega)
    rw [hbytes, Option.getD_some, bytesAt_getD (by omega)] at hfinal
    rwa [show E + 3 * g + (k - 3 * g) = E + k by omega, show S + 3 * g + (k - 3 * g) = S + k by omega] at hfinal

end

/-! ## The obligations -/

/-- Settles O55: ENCODE goes on to its end exactly on usable whole windows, and has then written the text. -/
theorem encodeSequenceLaws : Obligations.EncodeSequenceLaws := by
  intro S n D C s
  obtain ⟨⟨hn, hw⟩, t, ht, hrun⟩ | ⟨hno, o, t, hrun, hc⟩ := goesOn_refEncode S n D C s
  · obtain ⟨hsrc, hdst, hcap, hsrcTop, hdstTop, hapart, hreads, hwrites⟩ := hw
    exact ⟨_, t, hrun, iff_of_true rfl ⟨hn, hsrc, hdst, hcap, hsrcTop, hdstTop, hapart, hreads, hwrites⟩,
      fun _ => ⟨rfl, ht.frame, ht.group, ht.leftover, fun _ hk => ht.char hk⟩⟩
  · refine ⟨o, t, hrun, iff_of_false hc ?_, fun h => absurd h hc⟩
    rintro ⟨hn, hsrc, hdst, hcap, hsrcTop, hdstTop, hapart, hreads, hwrites⟩
    exact hno ⟨hn, hsrc, hdst, hcap, hsrcTop, hdstTop, hapart, hreads, hwrites⟩

/-- Settles O56: DECODE has gone through `DEC_SIZE`, and the windows of its other two commands make up the `m` bytes. -/
theorem decodeSequenceWritesItsSize : Obligations.DecodeSequenceWritesItsSize := by
  intro S n D C s t o m hm hcorner hrun hc
  obtain ⟨hsrc, ⟨hn4, hmod⟩, htop, h2, h1⟩ := sizeUsable_of_refDecode hrun hc
  obtain ⟨g, hn⟩ : ∃ g, n.toNat = 4 * g + 4 := ⟨n.toNat / 4 - 1, by omega⟩
  obtain ⟨husable, hdecoded, hcount⟩ := (goesOn_refDecode hn hm hcorner).at_end hrun hc
  have hparts : m = 3 * g + (3 - finalPads s.mem (S.toNat + 4 * g)) := by
    rw [← size_eq_of_groups, ← hn]
    exact hm
  obtain ⟨u, hu, houtcome, -⟩ :=
    decSizeCompletes { s with srcAddr := S, srcLen := n } _ ⟨hsrc, ⟨hn4, hmod⟩, htop⟩ h2 h1 rfl
  refine ⟨hn4, hmod, hcount, ?_, hparts ▸ husable.1.cap, hparts ▸ hdecoded.frame, u, hu,
    codeField_of_outcomeIs houtcome, ?_⟩
  · rw [hdecoded.result, hparts]
    omega
  · exact houtcome.2.1.trans hm.symm

/-- Settles O57: a text that DECODE accepts holds no invalid byte. -/
theorem decodeSequenceRejectsMalformedText : Obligations.DecodeSequenceRejectsMalformedText := by
  intro S n D C s t o k m hm hcorner hk hinvalid hrun hc
  obtain ⟨-, ⟨hn4, hmod⟩, -⟩ := sizeUsable_of_refDecode hrun hc
  obtain ⟨g, hn⟩ : ∃ g, n.toNat = 4 * g + 4 := ⟨n.toNat / 4 - 1, by omega⟩
  obtain ⟨husable, -⟩ := (goesOn_refDecode hn hm hcorner).at_end hrun hc
  exact husable.index_ne_invalid (hn ▸ hk) hinvalid

/-- Settles O59: the text that ENCODE wrote is well formed, has the decoded size `n`, and each of its groups decodes to
the bytes it encodes. -/
theorem decodeOfEncodeReturnsTheBytes : Obligations.DecodeOfEncodeReturnsTheBytes := by
  intro S n D C E F s t o hrun hc hE htop hcap ha hapart
  obtain ⟨⟨hn1, hw⟩, ht, -⟩ := (goesOn_refEncode S n D C s).at_end hrun hc
  obtain ⟨g, r, hn, hr⟩ : ∃ g r, n.toNat = 3 * g + r ∧ (r = 1 ∨ r = 2 ∨ r = 3) :=
    ⟨(n.toNat - 1) / 3, n.toNat - 3 * ((n.toNat - 1) / 3), by omega, by omega⟩
  have hL : textLength n.toNat = 4 * g + 4 := by
    unfold textLength
    omega
  obtain ⟨hpads, hbytes⟩ := ht.final_eq hn hr
  have hsize : 3 * g + (3 - finalPads t.mem (D.toNat + 4 * g)) = n.toNat := by omega
  have hword : (word (textLength n.toNat)).toNat = 4 * g + 4 := by
    have hdst := hw.dst
    have hdstTop := hw.dstTop
    rw [word_toNat (by omega), hL]
  have husable : DecodeUsable t D.toNat E.toNat F.toNat g := by
    refine ⟨?_, fun k hk => ht.isAlpha_of_full (by omega), by rw [hbytes]; rfl⟩
    rw [hsize, ht.platform, ← hL]
    exact ⟨hw.dst, hE, hcap, hw.dstTop, htop, hapart, hw.writes, ha⟩
  have hdecode := goesOn_refDecode (S := D) (n := word (textLength n.toNat)) (D := E) (C := F) (s := t) hword
    (by rw [hword, ← hsize]; exact (size_eq_of_groups _ _ _).symm) (.inl htop)
  obtain ⟨u, hu, hrun'⟩ := hdecode.after_of_ok husable
  exact ⟨_, u, hrun', rfl, rfl, fun k hk => hu.byte_of_encoded ht hn hr hk⟩

/-- The text `QUE9PQAA!AAA` at `0xFFFFFFF0`, and every address answering (log 13). -/
def wrappingText : State :=
  { State.reset with
    platform := ⟨0, false, [⟨0, 2 ^ 32⟩]⟩
    mem := [(0xFFFFFFF0, 0x51), (0xFFFFFFF1, 0x55), (0xFFFFFFF2, 0x45), (0xFFFFFFF3, 0x39), (0xFFFFFFF4, 0x50),
      (0xFFFFFFF5, 0x51), (0xFFFFFFF6, 0x41), (0xFFFFFFF7, 0x41), (0xFFFFFFF8, 0x21), (0xFFFFFFF9, 0x41),
      (0xFFFFFFFA, 0x41), (0xFFFFFFFB, 0x41)] }

/-- Settles O58: `DEC_BULK` writes `AA==` over the final group `!AAA`, and `DEC_BOUND` decodes that to one byte. -/
theorem decodeSequenceLawsNeedANonWrappingWindow : Obligations.DecodeSequenceLawsNeedANonWrappingWindow :=
  ⟨0xFFFFFFF0, 12, 0xFFFFFFF8, 7, wrappingText, _, _, 8, by decide, by decide, rfl, by decide, by decide, by decide,
    by decide, by decide⟩

end Sys2Proof.Machine

/-! PROOFS. The ends of a command (60_exceptions.md): the argument checks in their order, when a destination window
exists, and which outcomes a command records. -/

namespace Sys2Proof.Machine

/-! ## The source checks, each with its reason -/

section
variable {o : Operands} {K : LenClass}

theorem checkSrc_nullSrc (hsrc : o.src = 0) : checkSrc o K = some .nullSrc := if_pos hsrc

theorem checkSrc_lenZero (hsrc : o.src ≠ 0) (hlen : o.len = 0) : checkSrc o K = some .lenZero := by
  rw [checkSrc, if_neg hsrc, if_pos hlen]

theorem checkSrc_of_checkLen {r : Reason} (hsrc : o.src ≠ 0) (hlen : o.len ≠ 0) (hr : checkLen o.len K = some r) :
    checkSrc o K = some r := by
  simp only [checkSrc, if_neg hsrc, if_neg hlen, hr]

theorem LenAccepted.ne_zero {n : Nat} (h : LenAccepted K n) : n ≠ 0 := by
  cases K <;> simp only [LenAccepted] at h <;> omega

theorem checkSrc_srcWrap (hsrc : o.src ≠ 0) (hlen : LenAccepted K o.len) (htop : 2 ^ 32 < o.src + o.len) :
    checkSrc o K = some .srcWrap := by
  have hn := LenAccepted.ne_zero hlen
  simp only [checkSrc, if_neg hsrc, if_neg hn, (checkLen_eq_none hn K).mpr hlen]
  exact if_pos htop

end

theorem code_of_checkLen {i : Instr} {n : Nat} {r : Reason} (h : checkLen n (lenClass i) = some r) :
    r.code.toNat = lenReason i := by
  cases i
  all_goals
    simp only [lenClass, checkLen, Option.ite_none_right_eq_some, Option.some.injEq] at h
    obtain ⟨-, rfl⟩ := h
    rfl

/-- A length outside its class has the reason of the class. -/
theorem checkSrc_of_not_lenAccepted {o : Operands} {i : Instr} (hsrc : o.src ≠ 0) (hlen : o.len ≠ 0)
    (h : ¬LenAccepted (lenClass i) o.len) :
    ∃ r, checkSrc o (lenClass i) = some r ∧ r.code.toNat = lenReason i := by
  obtain ⟨r, hr⟩ := Option.ne_none_iff_exists'.mp (mt (checkLen_eq_none hlen _).mp h)
  exact ⟨r, checkSrc_of_checkLen hsrc hlen hr, code_of_checkLen hr⟩

/-! ## A command whose checks fail -/

section
variable {s : State} {e : Failure} {r : Reason}

theorem encBulk_of_prepare_error (h : encBulkPrepare s = .error e) : encBulk s = raise e s := by
  simp only [encBulk, h]

theorem encBound_of_prepare_error (h : encBoundPrepare s = .error e) : encBound s = raise e s := by
  simp only [encBound, h]

theorem decBulk_of_prepare_error (h : decBulkPrepare s = .error e) : decBulk s = raise e s := by
  simp only [decBulk, h]

theorem decBoundPrepare_of_checkSrc (h : checkSrc (operands s) .bound4 = some r) :
    decBoundPrepare s = .error (.invalidArgument r) := by
  simp only [decBoundPrepare, h]

theorem decSize_of_checkSrc (h : checkSrc (operands s) .size4 = some r) : decSize s = raise (.invalidArgument r) s := by
  simp only [decSize, h]

end

/-- Every command makes its source checks first (60_exceptions.md R202). -/
theorem exec_of_checkSrc {i : Instr} {s : State} {r : Reason} (h : checkSrc (operands s) (lenClass i) = some r) :
    exec i s = .next (raise (.invalidArgument r) s) := by
  cases i with
  | encBulk => exact congrArg _ (encBulk_of_prepare_error (checkArgs_of_src h))
  | encBound => exact congrArg _ (encBound_of_prepare_error (checkArgs_of_src h))
  | decBulk => exact congrArg _ (decBulk_of_prepare_error (checkArgs_of_src h))
  | decBound => exact congrArg _ (decBound_of_prepare_error (decBoundPrepare_of_checkSrc h))
  | decSize => exact congrArg _ (decSize_of_checkSrc h)

/-! ## The destination window -/

/-- The argument checks pass for the command's own output length only. -/
theorem checkArgs_eq_ok_iff_out {o : Operands} {K : LenClass} {out x : Nat} :
    checkArgs o K out = .ok x ↔ SrcUsable o K ∧ x = out ∧ DstUsable o x := by
  rw [checkArgs_eq_ok]
  constructor
  · rintro ⟨hs, hd, rfl⟩
    exact ⟨hs, rfl, hd⟩
  · rintro ⟨hs, rfl, hd⟩
    exact ⟨hs, hd, rfl⟩

theorem windowLength_decBound {s : State} {out : Nat} :
    windowLength .decBound s = some out ↔ ∃ g, decBoundPrepare s = .ok g ∧ g.out = out := by
  simp only [windowLength]
  cases decBoundPrepare s <;> simp [Except.toOption]

theorem windowLength_decBound_iff {s : State} {out : Nat} :
    windowLength .decBound s = some out ↔
      SrcUsable (operands s) .bound4 ∧ Answers s.platform s.srcAddr.toNat 4 ∧ out = 3 - tailPads s ∧
        DstUsable (operands s) out := by
  rw [windowLength_decBound]
  constructor
  · rintro ⟨g, hg, rfl⟩
    obtain ⟨hs, ha, hchars, hout, hd⟩ := decBoundPrepare_eq_ok.mp hg
    simp only [Prod.mk.injEq] at hchars
    obtain ⟨-, -, hc2, hc3⟩ := hchars
    exact ⟨hs, ha, by rw [hout, hc2, hc3], hd⟩
  · rintro ⟨hs, ha, hout, hd⟩
    exact ⟨tailGroupAt s out, decBoundPrepare_eq_ok.mpr ⟨hs, ha, rfl, hout, hd⟩, rfl⟩

/-! ## The code a command records -/

/-- A command that can fail past its destination checks with `BusError` only does not end `MALFORMED_INPUT` there. -/
theorem code_conclude_ne_three {out pads : Nat} {run : Except Failure Memory} {s : State}
    (h : ∀ e, run = .error e → ∃ g, e = .busError g) : codeField (conclude out pads run s).status ≠ 3 := by
  cases run with
  | ok m => simp [conclude_ok, codeOk]
  | error e =>
    obtain ⟨g, rfl⟩ := h e rfl
    simp [conclude_error, Failure.code]

/-- The argument checks do not end a command `MALFORMED_INPUT`. -/
theorem code_raise_checkArgs_ne_three {o : Operands} {K : LenClass} {out : Nat} {e : Failure} {s : State}
    (h : checkArgs o K out = .error e) : codeField (raise e s).status ≠ 3 := by
  obtain ⟨r, rfl⟩ := checkArgs_eq_error h
  simp [Failure.code]

/-- A group of `ENC_BULK` fails in its accesses only (41_encode.md R131). -/
theorem encodeGroup_eq_error {p : Platform} {src dst g : Nat} {m : Memory} {e : Failure}
    (h : encodeGroup p src dst g m = .error e) : e = .busError g := by
  rw [encodeGroup_eq] at h
  split at h
  · exact absurd h (by simp)
  · exact (Except.error.inj h).symm

theorem encBoundRun_eq_error {s : State} {e : Failure} (h : encBoundRun s = .error e) : e = .busError 0 := by
  unfold encBoundRun at h
  split at h
  · exact (Except.error.inj h).symm
  · exact absurd h (by simp)

theorem code_encBulk_ne_three (s : State) : codeField (encBulk s).status ≠ 3 := by
  cases hp : encBulkPrepare s with
  | error e =>
    rw [encBulk_of_prepare_error hp]
    exact code_raise_checkArgs_ne_three hp
  | ok out =>
    simp only [encBulk, hp]
    refine code_conclude_ne_three fun e he => ?_
    obtain ⟨j, m, -, -, hj⟩ := forGroups_error_cases he
    exact ⟨j, encodeGroup_eq_error hj⟩

theorem code_encBound_ne_three (s : State) : codeField (encBound s).status ≠ 3 := by
  cases hp : encBoundPrepare s with
  | error e =>
    rw [encBound_of_prepare_error hp]
    exact code_raise_checkArgs_ne_three hp
  | ok out =>
    simp only [encBound, hp]
    exact code_conclude_ne_three fun e he => ⟨0, encBoundRun_eq_error he⟩

/-- Malformed input is found only past the destination checks. -/
theorem Ended.window_of_malformed {i : Instr} {s t : State} (h : Ended i s t) (hc : codeField t.status = 3) :
    ∃ out, windowLength i s = some out := by
  cases h with
  | rejected e _ hm =>
    cases e with
    | malformedInput g => exact absurd rfl (hm g)
    | _ => simp [Failure.code] at hc
  | done => simp [codeOk] at hc
  | spoiled out g e hw => exact ⟨out, hw⟩

/-- An invalid argument is found only before the destination checks have passed. -/
theorem Ended.mem_of_invalidArgument {i : Instr} {s t : State} (h : Ended i s t) (hc : codeField t.status = 2) :
    t.mem = s.mem ∧ t.draws = s.draws := by
  cases h with
  | rejected e => exact ⟨rfl, rfl⟩
  | done => simp [codeOk] at hc
  | spoiled out g e _ he => obtain rfl | rfl := he <;> simp [Failure.code] at hc

/-! ## No event stops the unit -/

/-- Every word written to `CMD` records one of the outcomes 1 to 5. -/
theorem execute_records (w : Word) (s : State) : ∃ t, execute w s = .next t ∧ t.cmd = s.cmd ∧
    1 ≤ (codeField t.status).toNat ∧ (codeField t.status).toNat ≤ 5 := by
  cases hd : decode w with
  | ok i =>
    obtain ⟨t, ht, he⟩ := exec_cases i s
    obtain ⟨-, -, -, -, hcmd, -⟩ := he.sameInputs
    exact ⟨t, (execute_of_decode hd s).trans ht, hcmd, he.code⟩
  | error e => exact ⟨raise .illegalCommand s, by simp only [execute, hd], rfl, by simp [Failure.code]⟩

theorem hostWrite_next (addr : HostAddr) (width : Nat) (v : Word) (s : State) :
    ∃ t, hostWrite addr width v s = .next t := by
  unfold hostWrite
  split
  · exact ⟨_, rfl⟩
  · exact ⟨_, rfl⟩
  · split
    · obtain ⟨t, ht, -⟩ := execute_records v (answer .done (storeReg .cmd v s))
      exact ⟨t, ht⟩
    · exact ⟨_, rfl⟩

theorem step_next (s : State) : ∃ t, step s = .next t := by
  cases hp : s.pending with
  | nil => exact ⟨s, step_of_no_event hp⟩
  | cons e rest =>
    rw [step_of_pending hp]
    cases e with
    | hostWrite addr width v => exact hostWrite_next addr width v _
    | _ => exact ⟨_, rfl⟩

/-! ## The obligations -/

/-- Settles O26: every command makes its source checks first and ends with the first reason they give. -/
theorem sourceChecksRejectInOrder : Obligations.SourceChecksRejectInOrder := by
  intro i s
  obtain ⟨t, ht, -⟩ := exec_cases i s
  have hrejected : ∀ r, checkSrc (operands s) (lenClass i) = some r → RejectedAs s t r.code.toNat := fun r hr => by
    obtain rfl := Host.Outcome.next.inj (ht.symm.trans (exec_of_checkSrc hr))
    exact rejectedAs_raise r s
  refine ⟨t, ht, fun hsrc => hrejected _ (checkSrc_nullSrc hsrc),
    fun hsrc hlen => hrejected _ (checkSrc_lenZero hsrc hlen), fun hsrc hlen hclass => ?_,
    fun hsrc hlen htop => hrejected _ (checkSrc_srcWrap hsrc hlen htop)⟩
  obtain ⟨r, hr, hcode⟩ := checkSrc_of_not_lenAccepted (o := operands s) hsrc hlen hclass
  exact hcode ▸ hrejected r hr

/-- Settles O27: past its source checks each of the three ends with the first reason of its destination checks. -/
theorem destinationChecksRejectInOrder : Obligations.DestinationChecksRejectInOrder := by
  refine fun s => ⟨fun hs => ⟨encBulk s, rfl, ?_⟩, fun hs => ⟨encBound s, rfl, ?_⟩, fun hs => ⟨decBulk s, rfl, ?_⟩⟩
  · exact dstRejections_of_checkDst fun r hr =>
      encBulk_of_prepare_error (checkArgs_of_dst (checkSrc_eq_none.mpr hs) hr)
  · exact dstRejections_of_checkDst fun r hr =>
      encBound_of_prepare_error (checkArgs_of_dst (checkSrc_eq_none.mpr hs) hr)
  · exact dstRejections_of_checkDst fun r hr =>
      decBulk_of_prepare_error (checkArgs_of_dst (checkSrc_eq_none.mpr hs) hr)

/-- Settles O46: a command has a window exactly when its checks answer an output length. -/
theorem windowExistsOnceChecksPass : Obligations.WindowExistsOnceChecksPass := fun _ _ =>
  ⟨windowLength_encBulk.trans checkArgs_eq_ok_iff_out, windowLength_encBound.trans checkArgs_eq_ok_iff_out,
    windowLength_decBulk.trans checkArgs_eq_ok_iff_out, windowLength_decBound_iff, rfl⟩

/-- Settles O49: of the ways a command can end, only the rejection before the window exists has code 2. -/
theorem invalidArgumentWritesNothing : Obligations.InvalidArgumentWritesNothing :=
  fun _ _ _ h hc => (exec_ended h).mem_of_invalidArgument hc

/-- Settles O50: the encode commands fail in their groups with `BusError` only, and `DEC_SIZE` has no window. -/
theorem onlyDecodersFindMalformedInput : Obligations.OnlyDecodersFindMalformedInput := by
  intro i s t h hc
  cases i with
  | encBulk =>
    obtain rfl := Host.Outcome.next.inj h
    exact absurd hc (code_encBulk_ne_three s)
  | encBound =>
    obtain rfl := Host.Outcome.next.inj h
    exact absurd hc (code_encBound_ne_three s)
  | decBulk => exact .inl rfl
  | decBound => exact .inr rfl
  | decSize =>
    obtain ⟨out, hw⟩ := (exec_ended h).window_of_malformed hc
    exact absurd hw (by simp [windowLength])

/-- Settles O51: no event stops the unit, and the event of a write to `CMD` executes the word it stores. -/
theorem everyStepAnswersNext : Obligations.EveryStepAnswersNext := by
  intro s
  obtain ⟨t, ht⟩ := step_next s
  refine ⟨t, ht, fun addr w rest hp ho => ?_⟩
  have htarget : target s.platform addr 32 = .register .cmd := target_register ho rfl
  have hstep : step s = execute w { s with pending := rest, cmd := w, response := .done } :=
    (step_of_pending hp).trans (handle_hostWrite_cmd htarget)
  obtain ⟨u, hu, hcmd, hcode⟩ := execute_records w { s with pending := rest, cmd := w, response := .done }
  obtain rfl := Host.Outcome.next.inj (ht.symm.trans (hstep.trans hu))
  exact ⟨hcmd, hcode⟩

end Sys2Proof.Machine

/-! PROOFS. Reset (70_reset_and_hazards.md): what the registers hold after it, and what a reset during a command leaves of
the data memory. -/

namespace Sys2Proof.Machine

/-! ## The registers after a reset -/

theorem readReg_resetUnit (r : Reg) (s : State) :
    readReg r (resetUnit s) = if r = .id then 0x42363401 else 0x00000000 := by
  cases r <;> rfl

/-- The reset state is a state that a reset leaves, so what holds after every reset holds of it. -/
theorem resetUnit_reset : resetUnit State.reset = State.reset := rfl

theorem step_of_reset {s : State} {rest : List Event} (h : s.pending = .reset :: rest) :
    step s = .next (resetUnit { s with pending := rest }) := step_of_pending h

/-! ## A command that a reset cuts off -/

section
variable {s : State} {w : Word} {rest : List Event}

theorem step_of_resetDuringCommand (h : s.pending = .resetDuringCommand w :: rest) :
    step s = .next (resetUnit (cutOff w { s with pending := rest })) := step_of_pending h

/-- The checks of a command do not look at the events still to come. -/
theorem windowLength_withPending (i : Instr) : windowLength i { s with pending := rest } = windowLength i s := by
  cases i <;> rfl

/-- What a cut-off command can do: nothing, or draw the window it has. -/
theorem cutOff_cases (w : Word) (s : State) : cutOff w s = s ∨
    ∃ i out, decode w = .ok i ∧ windowLength i s = some out ∧ cutOff w s = drawWindow out s := by
  cases hd : decode w with
  | error e => exact .inl (by simp only [cutOff, hd])
  | ok i =>
    cases hw : windowLength i s with
    | none => exact .inl (by simp only [cutOff, hd, hw])
    | some out => exact .inr ⟨i, out, rfl, hw, by simp only [cutOff, hd, hw]⟩

@[simp] theorem cutOff_platform (w : Word) (s : State) : (cutOff w s).platform = s.platform := by
  obtain h | ⟨_, _, -, -, h⟩ := cutOff_cases w s <;> rw [h]
  rfl

@[simp] theorem cutOff_pending (w : Word) (s : State) : (cutOff w s).pending = s.pending := by
  obtain h | ⟨_, _, -, -, h⟩ := cutOff_cases w s <;> rw [h]
  rfl

/-- A byte that a cut-off command changes is an accessible byte of the command's destination window. -/
theorem window_of_byteAt_cutOff_ne {a : Nat} (h : byteAt (cutOff w s) a ≠ byteAt s a) :
    ∃ i out, decode w = .ok i ∧ windowLength i s = some out ∧ s.dstAddr.toNat ≤ a ∧ a < s.dstAddr.toNat + out ∧
      Platform.accessible s.platform a = true := by
  obtain hcut | ⟨i, out, hd, hw, hcut⟩ := cutOff_cases w s
  · exact absurd (by rw [hcut]) h
  · refine ⟨i, out, hd, hw, ?_⟩
    by_contra ha
    rw [hcut] at h
    exact h ((read_drawBytes _ _ _ _ _ _).trans (if_neg ha))

end

/-! ## The obligations -/

/-- Settles O16: a reset keeps the memory that the cut-off command leaves, and that one changes bytes of its window
only. -/
theorem resetDuringCommandSpoilsOnlyItsWindow : Obligations.ResetDuringCommandSpoilsOnlyItsWindow := by
  intro s w rest hp
  refine ⟨_, step_of_resetDuringCommand hp, fun r => readReg_resetUnit r _, by simp, by simp, fun a ha => ?_⟩
  obtain ⟨i, out, hd, hw, hwindow⟩ := window_of_byteAt_cutOff_ne (s := { s with pending := rest }) ha
  exact ⟨i, out, hd, (windowLength_withPending i).symm.trans hw, hwindow⟩

/-- Settles O14: the reset state is what a reset of it leaves. -/
theorem resetStateHoldsResetValues : Obligations.ResetStateHoldsResetValues :=
  fun r => resetUnit_reset ▸ readReg_resetUnit r State.reset

/-- Settles O15: the event resets the unit, which keeps the memory, the platform, the other events and the draws. -/
theorem resetEventSetsEveryRegister : Obligations.ResetEventSetsEveryRegister :=
  fun _ _ hp => ⟨_, step_of_reset hp, fun r => readReg_resetUnit r _, rfl, rfl, rfl, rfl⟩

/-- Settles O53: a reset keeps the memory's form and leaves legal outcome registers, and the empty memory has the form. -/
theorem resetStateHasTheInvariant : Obligations.ResetStateHasTheInvariant := by
  unfold Obligations.ResetStateHasTheInvariant
  rw [← resetUnit_reset]
  exact resetUnit_inv rfl

end Sys2Proof.Machine
